-- ==== Sys2Proof/Word.lean ====
section
/-! DEFINITION. The widths of the machine's values (00_scope.md R6, R8; 10_state.md R20). Everything computed on them
stands in Machine/. -/

namespace Sys2Proof

/-- A 40-bit memory word, and the width of AC, MQ and MBR. Bit 0 is the least significant bit (00_scope.md R8). -/
abbrev Word := BitVec 40

/-- A 12-bit word address: the width of PC, MAR and of an instruction's address field. Only 0 to 1023 name a word of
memory, but all 4096 values can be held (10_state.md R31). -/
abbrev Addr := BitVec 12

/-- An 8-bit opcode, the width of IR (10_state.md R26). -/
abbrev Opcode := BitVec 8

/-- A 20-bit instruction field, opcode above address: the width of IBR and of each half of a word
(30_encoding.md R70, R71). -/
abbrev Field := BitVec 20

/-- Text exchanged with the host: a list of characters. -/
abbrev Text := List Char

end Sys2Proof
end

