-- ==== Sys2Proof/Config.lean ====
section
/-! DEFINITION. What the spec fixes for every machine of this kind (00_scope.md R6), and the FREE VALUES: opaque
constants for the few values the spec leaves open, of which nothing can be proved. The six parameters of R7, whose
values the spec decides, stand in Machine/Params.lean. -/

namespace Sys2Proof

/-- `MEM_WORDS`: the number of memory words; the legal addresses are 0 to 1023 (00_scope.md R6, 20_memory.md R50). -/
def Config.memWords : Nat := 1024

/-- `WORD_MOD` = 2^40, the modulus of all word arithmetic (00_scope.md R6). -/
def Config.wordMod : Nat := 2 ^ 40

/-- The least value that reads as negative, 2^39: bit 39 (`SIGN_BIT`) is the sign of a word (00_scope.md R6, R13). -/
def Config.signWeight : Nat := 2 ^ 39

/-- FREE VALUE (log 16). The address that `invalidInstruction` reports in `right_execute` with PC = 0, where the rule's
PC - 1 is no address. Only a host can make that state (60_exceptions.md R186: "In `right_execute` PC >= 1 in every
reachable state"). -/
opaque Config.addressBeforeZero : Addr

/-- FREE VALUE (log 24). The text of `dumpCPU()`, whose format "is not in the source" (80_host_interface.md R241). It is
a function of the register contents: PC, MAR, IR, IBR, MBR, AC, MQ and the name of CTRL. -/
opaque Config.dumpCpuText (pc mar : Addr) (ir : Opcode) (ibr : Field) (mbr ac mq : Word) (ctrlName : Text) : Text

/-- FREE VALUE (log 19), the open parameter `ATTR_NAMES` of 80_host_interface.md R235: whether the attribute of this
(lower-case) name exists, for a name other than the four the spec gives. -/
opaque Config.attrNameExists (name : Text) : Bool

/-- FREE VALUE (log 20). How the text form of an opcode field or of an address field (`isOpcode` says which) is spelled: the
spec gives the text form of an instruction view only (80_host_interface.md R236), but a value that can be written must read
back (R240), so no two of them share a text. A permutation of all texts says that and nothing more. -/
opaque Config.spelling (isOpcode : Bool) : Equiv.Perm Text

/-- FREE VALUE (log 20). The text form of an opcode that is not defined, which no attribute write puts there
(80_host_interface.md R238). -/
opaque Config.undefinedOpcodeText (value : Nat) : Text

/-- FREE VALUE (log 20). The field that a text stands for, if any, when it is the text form of no value that can be written
(80_host_interface.md R238). -/
opaque Config.otherPartText (isOpcode : Bool) (text : Text) : Option Nat

end Sys2Proof
end

