-- ==== Sys2Proof/Syntax.lean ====
section
/-! DEFINITION. The instruction set: one constructor for each of the 20 rows of spec/opcode_table.json
(30_encoding.md R74). Each carries the 12-bit address field `x` of its encoding, the X of the mnemonic's M(X)
(R73). LOAD MQ, LSH and RSH carry it too: their effect ignores it, but the field exists in the encoding and `fetch()`
copies it to MAR (R77). -/

namespace Sys2Proof

/-- One instruction with its address field. -/
inductive Instr where
  /-- `LOAD M(X)`, opcode 1 (41_load.md R121). -/
  | loadM (x : Addr)
  /-- `LOAD -M(X)`, opcode 2 (41_load.md R122). -/
  | loadNegM (x : Addr)
  /-- `LOAD |M(X)|`, opcode 3 (41_load.md R123). -/
  | loadAbsM (x : Addr)
  /-- `ADD M(X)`, opcode 5 (42_addsub.md R131). -/
  | addM (x : Addr)
  /-- `SUB M(X)`, opcode 6 (42_addsub.md R132). -/
  | subM (x : Addr)
  /-- `ADD |M(X)|`, opcode 7 (42_addsub.md R133). -/
  | addAbsM (x : Addr)
  /-- `SUB |M(X)|`, opcode 8 (42_addsub.md R134). -/
  | subAbsM (x : Addr)
  /-- `LOAD MQ,M(X)`, opcode 9 (41_load.md R124). -/
  | loadMqM (x : Addr)
  /-- `LOAD MQ`, opcode 10 (41_load.md R125); the address field is ignored. -/
  | loadMq (x : Addr)
  /-- `MUL M(X)`, opcode 11 (43_muldiv.md R141). -/
  | mulM (x : Addr)
  /-- `DIV M(X)`, opcode 12 (43_muldiv.md R145). -/
  | divM (x : Addr)
  /-- `JUMP M(X,0:19)`, opcode 13 (44_jump.md R155): to the left half of word X. -/
  | jumpLeft (x : Addr)
  /-- `JUMP M(X,20:39)`, opcode 14 (44_jump.md R156): to the right half of word X. -/
  | jumpRight (x : Addr)
  /-- `JUMP+ M(X,0:19)`, opcode 15 (44_jump.md R157): to the left half if AC is non-negative. -/
  | jumpPlusLeft (x : Addr)
  /-- `JUMP+ M(X,20:39)`, opcode 16 (44_jump.md R158): to the right half if AC is non-negative. -/
  | jumpPlusRight (x : Addr)
  /-- `STOR M(X,8:19)`, opcode 18 (45_store.md R166): patches the left address field of word X. -/
  | storLeftAddr (x : Addr)
  /-- `STOR M(X,28:39)`, opcode 19 (45_store.md R167): patches the right address field of word X. -/
  | storRightAddr (x : Addr)
  /-- `LSH`, opcode 20 (46_shift.md R175); the address field is ignored. -/
  | lsh (x : Addr)
  /-- `RSH`, opcode 21 (46_shift.md R176); the address field is ignored. -/
  | rsh (x : Addr)
  /-- `STOR M(X)`, opcode 33 (45_store.md R165). -/
  | storM (x : Addr)
deriving DecidableEq, Repr

/-- The address field of an instruction (30_encoding.md R73). -/
def Instr.operand : Instr → Addr
  | .loadM x | .loadNegM x | .loadAbsM x | .addM x | .subM x | .addAbsM x | .subAbsM x | .loadMqM x | .loadMq x
  | .mulM x | .divM x | .jumpLeft x | .jumpRight x | .jumpPlusLeft x | .jumpPlusRight x | .storLeftAddr x
  | .storRightAddr x | .lsh x | .rsh x | .storM x => x

/-- How an instruction uses its address field (the column "uses `addr`" of 30_encoding.md R74). -/
inductive AddrUse where
  /-- The address of the memory word that the effect reads or writes: the 13 memory-referencing opcodes
  (40_fetch_execute.md R111). -/
  | data
  /-- The target of a jump (44_jump.md R154). -/
  | jump
  /-- Not used by the effect (30_encoding.md R77). -/
  | ignored
deriving DecidableEq, Repr

/-- The use of the address field, instruction by instruction (30_encoding.md R74). -/
def Instr.addrUse : Instr → AddrUse
  | .loadM _ | .loadNegM _ | .loadAbsM _ | .addM _ | .subM _ | .addAbsM _ | .subAbsM _ | .loadMqM _
  | .mulM _ | .divM _ | .storLeftAddr _ | .storRightAddr _ | .storM _ => .data
  | .jumpLeft _ | .jumpRight _ | .jumpPlusLeft _ | .jumpPlusRight _ => .jump
  | .loadMq _ | .lsh _ | .rsh _ => .ignored

end Sys2Proof
end

