-- ==== Sys2Proof/WellFormed.lean ====
section
/-! DEFINITION. What a well-formed encoding, a well-formed instruction and an assemblable instruction are. -/

namespace Sys2Proof

/-- The 20 defined opcodes (30_encoding.md R74); the other 236 are undefined (R76). -/
def definedOpcodes : List Opcode :=
  [1, 2, 3, 5, 6, 7, 8, 9, 10, 11, 12, 13, 14, 15, 16, 18, 19, 20, 21, 33]

/-- Whether the table lookup of `execute()` finds this opcode (30_encoding.md R74, R75). -/
def opcodeDefined (op : Opcode) : Bool := definedOpcodes.contains op

/-- Whether a number fits the 20-bit instruction field (30_encoding.md R70). -/
def fitsField (n : Nat) : Bool := decide (n < 2 ^ 20)

/-- Whether the number `n` is the encoding of an instruction: it fits the field and its opcode, bits 19 to 12, is
defined. The address, bits 11 to 0, is free: "every one of the 4096 values of `addr` is accepted with every defined
opcode at decode time" (30_encoding.md R75). -/
def encodingWellFormed (n : Nat) : Bool := fitsField n && opcodeDefined (BitVec.ofNat 8 (n / 4096))

/-- An instruction is well-formed for the hardware when its operand fits the 12-bit address field (30_encoding.md
R75). The type `Addr` already enforces it; 1024 to 4095 are included, since the hardware decodes them (R78). -/
def Instr.wellFormed (i : Instr) : Bool := decide (i.operand.toNat < 4096)

/-- Whether the assembler can produce the instruction: an address below 1024 where the template has a placeholder, and 0
where it has none (30_encoding.md R87, R88). -/
def Instr.assemblable (i : Instr) : Bool :=
  match i.addrUse with
  | .data | .jump => decide (i.operand.toNat < Config.memWords)
  | .ignored => decide (i.operand.toNat = 0)

end Sys2Proof
end

