-- ==== Sys2Proof/Decode.lean ====
section
/-! DEFINITION. The decoder, total on every 20-bit field and refusing an undefined opcode by name, and the encoder
(30_encoding.md R70 to R78). -/

namespace Sys2Proof

/-- The opcode of an instruction field, bits 19 to 12 (30_encoding.md R70). -/
def fieldOpcode (f : Field) : Opcode := f.extractLsb' 12 8

/-- The address of an instruction field, bits 11 to 0 (30_encoding.md R70). -/
def fieldAddr (f : Field) : Addr := f.extractLsb' 0 12

/-- The field with this opcode and address: `opcode * 4096 + addr` (30_encoding.md R70). -/
def makeField (op : Opcode) (x : Addr) : Field := op ++ x

/-- Why a field is no instruction. -/
inductive DecodeError where
  /-- The opcode is not one of the 20 of 30_encoding.md R74; raised by the decoder, and reported by `execute()` as
  `invalidInstruction` (R76). Safe: the spec gives such an opcode exactly this behaviour. -/
  | undefinedOpcode (op : Opcode)
  /-- The number does not fit the 20-bit field (30_encoding.md R70). Raised for table words only, never by the machine,
  whose registers hold exactly 20 bits. Safe. -/
  | tooWide
deriving DecidableEq, Repr

/-- The opcode map (30_encoding.md R74): the lookup is on the opcode alone, every address is accepted (R75). -/
def decodeParts (op : Opcode) (x : Addr) : Except DecodeError Instr :=
  match op.toNat with
  | 1 => .ok (.loadM x)
  | 2 => .ok (.loadNegM x)
  | 3 => .ok (.loadAbsM x)
  | 5 => .ok (.addM x)
  | 6 => .ok (.subM x)
  | 7 => .ok (.addAbsM x)
  | 8 => .ok (.subAbsM x)
  | 9 => .ok (.loadMqM x)
  | 10 => .ok (.loadMq x)
  | 11 => .ok (.mulM x)
  | 12 => .ok (.divM x)
  | 13 => .ok (.jumpLeft x)
  | 14 => .ok (.jumpRight x)
  | 15 => .ok (.jumpPlusLeft x)
  | 16 => .ok (.jumpPlusRight x)
  | 18 => .ok (.storLeftAddr x)
  | 19 => .ok (.storRightAddr x)
  | 20 => .ok (.lsh x)
  | 21 => .ok (.rsh x)
  | 33 => .ok (.storM x)
  | _ => .error (.undefinedOpcode op)

/-- The instruction that a 20-bit field stands for (30_encoding.md R70, R74). -/
def decode (f : Field) : Except DecodeError Instr := decodeParts (fieldOpcode f) (fieldAddr f)

/-- The opcode of an instruction, from the table of 30_encoding.md R74. -/
def Instr.opcode : Instr → Opcode
  | .loadM _ => 1
  | .loadNegM _ => 2
  | .loadAbsM _ => 3
  | .addM _ => 5
  | .subM _ => 6
  | .addAbsM _ => 7
  | .subAbsM _ => 8
  | .loadMqM _ => 9
  | .loadMq _ => 10
  | .mulM _ => 11
  | .divM _ => 12
  | .jumpLeft _ => 13
  | .jumpRight _ => 14
  | .jumpPlusLeft _ => 15
  | .jumpPlusRight _ => 16
  | .storLeftAddr _ => 18
  | .storRightAddr _ => 19
  | .lsh _ => 20
  | .rsh _ => 21
  | .storM _ => 33

/-- The instruction field of an instruction (30_encoding.md R70). -/
def encode (i : Instr) : Field := makeField i.opcode i.operand

/-- The instruction that the decoder reads from a number, refusing one wider than the field. -/
def decodeNat (n : Nat) : Except DecodeError Instr :=
  if n < 2 ^ 20 then decode (BitVec.ofNat 20 n) else .error .tooWide

/-- The instruction that the decoder reads from a row of spec/opcode_table.json, whose bits are numbered as the field's
own: opcode [19:12], addr [11:0]. `nbits` is how many bits the host gives; every bit above is 0. -/
def decodeTableWord (nbits w : Nat) : Option Instr := (decodeNat (w % 2 ^ nbits)).toOption

end Sys2Proof
end

