-- ==== Sys2Proof/Machine/Alu.lean ====
section
/-! DEFINITION. The word arithmetic (00_scope.md R9, R12 to R14): exact on the integers, with the reduction modulo 2^40
written out. -/

namespace Sys2Proof.Machine

/-- `selectBits(value, lsb, width)`, this spec's `value[lsb+width-1 : lsb]` (00_scope.md R9). -/
def selectBits (w : Word) (lsb width : Nat) : BitVec width := w.extractLsb' lsb width

/-- `wrap40(n) = n mod 2^40` on a natural number (00_scope.md R13). -/
def wrap40 (n : Nat) : Word := BitVec.ofNat 40 n

/-- Whether a word reads as negative, bit 39 set: `w >= 2^39` (00_scope.md R13). -/
def isNegative (w : Word) : Bool := decide (Config.signWeight ≤ w.toNat)

/-- `sval(w)`, the two's-complement reading of a word (00_scope.md R13). -/
def sval (w : Word) : Int := if isNegative w then (w.toNat : Int) - Config.wordMod else (w.toNat : Int)

/-- `neg40(w) = (2^40 - w) mod 2^40` (00_scope.md R13). -/
def neg40 (w : Word) : Word := wrap40 (Config.wordMod - w.toNat)

/-- `abs40(w)`: `w` if `w < 2^39`, else `2^40 - w` (00_scope.md R13). -/
def abs40 (w : Word) : Word := if isNegative w then wrap40 (Config.wordMod - w.toNat) else w

/-- `(a + b) mod 2^40` (42_addsub.md R131). -/
def add40 (a b : Word) : Word := wrap40 (a.toNat + b.toNat)

/-- `(a + 2^40 - b) mod 2^40` (42_addsub.md R132). -/
def sub40 (a b : Word) : Word := wrap40 (a.toNat + Config.wordMod - b.toNat)

/-- `(a * 2) mod 2^40` (46_shift.md R175). -/
def shiftLeft40 (a : Word) : Word := wrap40 (a.toNat * 2)

/-- `a div 2` on the unsigned value: a logical shift, zero into bit 39 (46_shift.md R176; log 11). -/
def shiftRight40 (a : Word) : Word := wrap40 (a.toNat / 2)

/-- `splice(w, lsb, f) = w - w[lsb+n-1 : lsb] * 2^lsb + f * 2^lsb`: `w` with the field at `lsb` replaced by `f`
(45_store.md R168; 80_host_interface.md R238 for the other widths). -/
def splice {n : Nat} (w : Word) (lsb : Nat) (f : BitVec n) : Word :=
  wrap40 (w.toNat - 2 ^ lsb * (selectBits w lsb n).toNat + 2 ^ lsb * f.toNat)

/-- An 80-bit quantity held as two words, high half and low half (43_muldiv.md R141). -/
structure Pair80 where
  /-- Bits 79 to 40. -/
  hi : Word
  /-- Bits 39 to 0. -/
  lo : Word
deriving DecidableEq, Repr

/-- The two halves of a number below 2^80: `P div 2^40` and `P mod 2^40` (43_muldiv.md R141). -/
def split80 (p : Nat) : Pair80 := { hi := wrap40 (p / Config.wordMod), lo := wrap40 p }

/-- `neg80(hi, lo)`, the exact negation of an 80-bit two's-complement number (43_muldiv.md R143). -/
def neg80 (p : Pair80) : Pair80 :=
  { hi := wrap40 (Config.wordMod - p.hi.toNat - (if p.lo = 0 then 0 else 1)), lo := wrap40 (Config.wordMod - p.lo.toNat) }

/-- The second form that 43_muldiv.md R143 gives of the same negation: decrement the low half, borrow into the high half
when it underflows, then complement every bit of both. -/
def neg80ByComplement (p : Pair80) : Pair80 :=
  { hi := ~~~ (if p.lo = 0 then sub40 p.hi 1 else p.hi), lo := ~~~ (sub40 p.lo 1) }

/-- `mulNegAdjust`, the adjustment of AC:MQ for a negative product; the spec's value is `neg80` (43_muldiv.md R143,
92_eei_decisions.md D6). UNVERIFIED, log 10. -/
def mulNegAdjust (p : Pair80) : Pair80 := neg80 p

/-- The product of MUL: magnitudes multiplied exactly, adjusted when the signs differ (43_muldiv.md R141). -/
def mul80 (a m : Word) : Pair80 :=
  let p := split80 ((abs40 a).toNat * (abs40 m).toNat)
  if isNegative a != isNegative m then mulNegAdjust p else p

/-- The magnitude product by 20-bit halves with carry propagation, as the datapath of 43_muldiv.md R142 forms it. -/
def mulByHalves (ma mm : Word) : Pair80 :=
  let ah := (selectBits ma 20 20).toNat
  let al := (selectBits ma 0 20).toNat
  let bh := (selectBits mm 20 20).toNat
  let bl := (selectBits mm 0 20).toNat
  let mid := ah * bl + al * bh
  let t := al * bl + mid % 2 ^ 20 * 2 ^ 20
  { hi := wrap40 (ah * bh + mid / 2 ^ 20 + t / 2 ^ 40), lo := wrap40 (t % 2 ^ 40) }

/-- The quotient of DIV: `floor(|AC| / |d|)`, negated when the signs differ (43_muldiv.md R145). -/
def divQuotient (a d : Word) : Word :=
  let q := wrap40 ((abs40 a).toNat / (abs40 d).toNat)
  if isNegative a != isNegative d then neg40 q else q

/-- The remainder of DIV: `|AC| mod |d|`, with the dividend's sign (43_muldiv.md R145). -/
def divRemainder (a d : Word) : Word :=
  let r := wrap40 ((abs40 a).toNat % (abs40 d).toNat)
  if isNegative a then neg40 r else r

end Sys2Proof.Machine
end

