-- ==== Sys2Proof/Machine/State.lean ====
section
/-! DEFINITION. The whole state of the machine (10_state.md R20: nine components, "no other state"), its reset value,
and the kinds of failure an operation can end with (60_exceptions.md R183, R191). -/

namespace Sys2Proof.Machine

/-- The control state, an enumeration and "not a bitfield" (10_state.md R28). -/
inductive Ctrl where
  /-- `left_fetch`: the next operation is the fetch of the left instruction of the word at PC. -/
  | leftFetch
  /-- `right_fetch`: the next operation is the fetch of the right instruction from IBR. -/
  | rightFetch
  /-- `right_fetch_RAM`: the next operation is the fetch of the right instruction of the word at PC, from memory. -/
  | rightFetchRAM
  /-- `left_execute`: the next operation is `execute()` of an instruction that came from a left half. -/
  | leftExecute
  /-- `right_execute`: the next operation is `execute()` of an instruction that came from a right half. -/
  | rightExecute
deriving DecidableEq, Repr

/-- Whether this is one of the two execute states (10_state.md R28, 40_fetch_execute.md R101). -/
def Ctrl.isExecute : Ctrl → Bool
  | .leftExecute | .rightExecute => true
  | .leftFetch | .rightFetch | .rightFetchRAM => false

/-- One listed memory word: an address and its contents. The addressable unit is the 40-bit word; the machine has no
bytes (20_memory.md R52, 92_eei_decisions.md D22; log 1). -/
abbrev Cell := Nat × Word

/-- The memory of 1024 words (10_state.md R29), as the list of the words that are not zero. An address that is not
listed reads as the power-on content, zero (R29: "zero-initialized, always fully defined"). -/
structure Memory where
  /-- The listed words, addresses strictly rising. -/
  cells : List Cell
deriving DecidableEq, Repr

/-- The canonical form of a list of cells whose addresses start at `lo`: strictly rising addresses, all below 1024, and
no entry equal to what an unlisted address reads as. -/
def cellsCanonical (lo : Nat) : List Cell → Bool
  | [] => true
  | (a, v) :: rest => decide (lo ≤ a) && decide (a < Config.memWords) && decide (v ≠ 0) && cellsCanonical (a + 1) rest

/-- The memory is in its one canonical form, so that equal memories are equal data. -/
def Memory.wf (m : Memory) : Bool := cellsCanonical 0 m.cells

/-- The state: seven registers, the control state and the memory (10_state.md R20). -/
structure State where
  /-- PC, the program counter, a word address (10_state.md R24, R30). -/
  pc : Addr
  /-- MAR, the memory address register (10_state.md R25). -/
  mar : Addr
  /-- IR, the opcode of the instruction in flight (10_state.md R26). -/
  ir : Opcode
  /-- IBR, the buffered right instruction (10_state.md R27). -/
  ibr : Field
  /-- MBR, the memory buffer register (10_state.md R23). -/
  mbr : Word
  /-- AC, the accumulator (10_state.md R21). -/
  ac : Word
  /-- MQ, the multiplier-quotient register (10_state.md R22). -/
  mq : Word
  /-- CTRL, the control state (10_state.md R28). -/
  ctrl : Ctrl
  /-- The memory (10_state.md R29). -/
  mem : Memory
deriving DecidableEq, Repr

/-- Power-on: "constructed with Memory and all registers zero, CTRL = left_fetch" (10_state.md R40). The host operation
`reset()`, which keeps most of the state, is `resetCall` in Machine/Resets.lean. -/
def State.reset : State :=
  { pc := 0, mar := 0, ir := 0, ibr := 0, mbr := 0, ac := 0, mq := 0, ctrl := .leftFetch, mem := ⟨[]⟩ }

/-- The failure kinds (60_exceptions.md R183, R191), a closed enumeration. Every one is an outcome of one operation,
reported to the driver; the operation then changes nothing (R181). All are the spec's own, so all are safe. The message
text is not modelled (log 27). -/
inductive Fault where
  /-- R184. Raised by `fetch()`: with no number in an execute state ("cannot fetch mid-execute"); with the PC when a
  fetch from memory finds PC >= 1024. Safe. -/
  | invalidFetch (pc : Option Addr)
  /-- R185. Raised by `execute()` when CTRL is a fetch state. Safe. -/
  | invalidExecution
  /-- R186. Raised by `execute()` when IR holds an undefined opcode; carries the address of the word the instruction
  came from. Safe. -/
  | invalidInstruction (address : Addr)
  /-- R187, R191. Raised by `execute()` of a memory-referencing opcode with MAR >= 1024 (carries the MAR value), and by
  getRAM and setRAM with an address outside 0 to 1023. Safe. -/
  | invalidAccess (address : Nat)
  /-- R188. Raised by `execute()` of DIV when the divisor is 0. Safe. -/
  | arithmeticException
  /-- R190. Raised by `fetch()` in `right_fetch` with PC = 4095, a state only a host can make; carries the PC. Safe. -/
  | invalidData (pc : Addr)
  /-- R191. Raised by loadRAM and by a register or memory write with a number out of its declared range. Safe. -/
  | invalidNumber
  /-- R191. Raised by the codec's `encode` when no template matches the whole input. Safe. -/
  | invalidInstructionString
  /-- R191. Raised by the codec's `encode` when the address operand is >= 1024. Safe. -/
  | invalidInstructionAddress
  /-- R191. Raised by getRAM and setRAM for an unknown attribute or one not legal for memory. Safe. -/
  | invalidMemoryAttribute
  /-- R191. Raised by getCPU and setCPU for an unknown attribute or one not legal for that register. Safe. -/
  | invalidCPURegisterAttribute
  /-- R191. Raised by getCPU and setCPU for an unknown register name. Safe. -/
  | invalidRegister
  /-- R191. Raised by setCPU of CTRL when the value is not one of the five names. Safe. -/
  | invalidCPUState
  /-- R191. Raised by setRAM when the value fails the attribute's validator. Safe. -/
  | invalidAttributeValue
  /-- R191. Raised by setCPU when the value fails the attribute's validator. Safe. -/
  | invalidCPUAttributeValue
  /-- R191, R243. Raised by loadRAM for a line that does not match the grammar; carries the 1-based line number. Safe. -/
  | invalidMap (line : Nat)
deriving DecidableEq, Repr

/-- Why the model gives an instruction no meaning. -/
inductive Refusal where
  /-- An instruction of the table that the model does not give a meaning to; raised by `exec`'s arm for it. No arm
  raises it: all 20 instructions have their meaning. Safe (the model stops where the hardware goes on). -/
  | notModelled (mnemonic : String)
deriving DecidableEq, Repr

end Sys2Proof.Machine
end

