-- ==== Sys2Proof/Machine/Params.lean ====
section
/-! DEFINITION. The parameters of 00_scope.md R7: points the source leaves open and the spec decides, each at the value
the spec decides (92_eei_decisions.md). A meaning that depends on one reads it here, so that a claim resting on the
decision can name it. All are UNVERIFIED: they are the spec's own choice, not its source's. -/

namespace Sys2Proof.Machine

/-- `JUMP_NOT_TAKEN_ADVANCES` (D1, 40_fetch_execute.md R110): a `JUMP+` whose condition is false advances CTRL as a
non-jump does; with `false` CTRL stays in its execute state. UNVERIFIED, log 6. -/
def jumpNotTakenAdvances : Bool := true

/-- `JUMP_VALIDATES_TARGET` (D2, 44_jump.md R159): a taken jump does not check its target; with `true` it fails with
`invalidAccess` when the target is 1024 or more. UNVERIFIED, log 7. -/
def jumpValidatesTarget : Bool := false

/-- `MBR_WRITTEN_BY_MUL_DIV_PARTIAL_STOR` (D3, 10_state.md R23): MUL, DIV and the two partial stores leave MBR
unchanged; with `true` it receives the word they read from memory. UNVERIFIED, log 8. -/
def mbrWrittenByMulDivPartialStor : Bool := false

/-- `STOR_LEFT_SRC_LSB` (D4, 45_store.md R166): the lowest of the 12 bits of AC that opcode 18 stores. UNVERIFIED,
log 9. -/
def storLeftSrcLsb : Nat := 20

/-- `ZERO_REGS_RESETS_CTRL` (D10, 70_reset_and_hazards.md R211): `zeroAllRegisters()` also sets CTRL to `left_fetch`.
UNVERIFIED, log 13. -/
def zeroRegsResetsCtrl : Bool := true

end Sys2Proof.Machine
end

