-- ==== Sys2Proof/Machine/Ops.lean ====
section
/-! DEFINITION. The named operations over memory and registers, and the one way an operation fails. -/

namespace Sys2Proof.Machine

/-- The outcome of one operation of the machine. -/
abbrev Result := Host.Outcome State Fault Refusal

/-! ### Memory (20_memory.md R51) -/

/-- What an address that is not listed reads as: the power-on content (10_state.md R29, R40). -/
def unlistedWord : Word := 0

/-- The word at an address, from a list of cells. -/
def readCells : List Cell → Nat → Word
  | [], _ => unlistedWord
  | (k, v) :: rest, a => if k = a then v else readCells rest a

/-- Puts a cell in its place by address. -/
def insertCell (a : Nat) (v : Word) : List Cell → List Cell
  | [] => [(a, v)]
  | (k, w) :: rest => if a < k then (a, v) :: (k, w) :: rest else (k, w) :: insertCell a v rest

/-- Takes every cell of an address out. -/
def removeCell (a : Nat) : List Cell → List Cell
  | [] => []
  | (k, w) :: rest => if k = a then removeCell a rest else (k, w) :: removeCell a rest

/-- `MemRead(a)`: the 40-bit word at `a`; "changes nothing" (20_memory.md R51). The check `a < 1024` is the caller's. -/
def Memory.read (m : Memory) (a : Nat) : Word := readCells m.cells a

/-- `MemWrite(a, v)`: replaces the whole word at `a`, "changes no other word" (20_memory.md R51). The check `a < 1024`
is the caller's. Writing the value an unlisted address reads as removes the entry. -/
def Memory.write (m : Memory) (a : Nat) (v : Word) : Memory :=
  if v = unlistedWord then ⟨removeCell a m.cells⟩ else ⟨insertCell a v (removeCell a m.cells)⟩

/-! ### Register writes -/

/-- PC <- v. -/
def State.withPc (s : State) (v : Addr) : State := { s with pc := v }
/-- MAR <- v. -/
def State.withMar (s : State) (v : Addr) : State := { s with mar := v }
/-- IR <- v. -/
def State.withIr (s : State) (v : Opcode) : State := { s with ir := v }
/-- IBR <- v. -/
def State.withIbr (s : State) (v : Field) : State := { s with ibr := v }
/-- MBR <- v. -/
def State.withMbr (s : State) (v : Word) : State := { s with mbr := v }
/-- AC <- v. -/
def State.withAc (s : State) (v : Word) : State := { s with ac := v }
/-- MQ <- v. -/
def State.withMq (s : State) (v : Word) : State := { s with mq := v }
/-- CTRL <- v. -/
def State.withCtrl (s : State) (v : Ctrl) : State := { s with ctrl := v }
/-- Mem <- m. -/
def State.withMem (s : State) (m : Memory) : State := { s with mem := m }

/-! ### Failing (60_exceptions.md R180 to R182) -/

/-- `raise K(info)` (00_scope.md R15): the operation in progress ends with this failure. There is no trap entry: nothing
is saved, no mode changes, control goes nowhere inside the machine (60_exceptions.md R182), so the outcome is the kind
alone, and the state stays the one before the call (R181, log 3). -/
def raise (k : Fault) : Result := .fault k

/-! ### Control state (40_fetch_execute.md R108) -/

/-- Where `advance CTRL` goes: `left_execute -> right_fetch`, `right_execute -> left_fetch` (40_fetch_execute.md R108). It
is applied in execute states only; a fetch state is left as it is. -/
def Ctrl.advanced : Ctrl → Ctrl
  | .leftExecute => .rightFetch
  | .rightExecute => .leftFetch
  | .leftFetch => .leftFetch
  | .rightFetch => .rightFetch
  | .rightFetchRAM => .rightFetchRAM

/-- `advance CTRL` (40_fetch_execute.md R108). -/
def State.advance (s : State) : State := s.withCtrl s.ctrl.advanced

/-- The guard of every `execute()`: it "fails with `invalidExecution` unless CTRL is an execute state"
(40_fetch_execute.md R106), before any other check (60_exceptions.md R192; log 17). -/
def executing (s : State) (effect : Result) : Result :=
  if s.ctrl.isExecute then effect else raise .invalidExecution

/-! ### The data path's address check (40_fetch_execute.md R111) -/

/-- Whether a number is the address of a memory word: `0 <= a < 1024` (20_memory.md R50). -/
def inMemory (a : Nat) : Bool := decide (a < Config.memWords)

/-- The check of a memory-referencing instruction: `invalidAccess(X)` when X >= 1024, before any change
(40_fetch_execute.md R111, 20_memory.md R58). -/
def checkedAddress (x : Addr) (effect : Result) : Result :=
  if inMemory x.toNat then effect else raise (.invalidAccess x.toNat)

end Sys2Proof.Machine
end

