-- ==== Sys2Proof/Machine/Operands.lean ====
section
/-! DEFINITION. The operand forms of the instruction set (30_encoding.md R73, R74): the memory word M(X), its negation
-M(X), its absolute value |M(X)|, the address X itself as a jump target, and the 12-bit address subfields of a word. -/

namespace Sys2Proof.Machine

/-- The forms in which an instruction uses the memory word. -/
inductive OperandForm where
  /-- `M(X)`: the word as read. -/
  | plain
  /-- `-M(X)`: its negation (41_load.md R122). -/
  | negated
  /-- `|M(X)|`: its absolute value (41_load.md R123; 42_addsub.md R130 for opcodes 7 and 8, D7, log 12). -/
  | magnitude
deriving DecidableEq, Repr

/-- The value of an operand form, from the word as read (41_load.md R121 to R123). -/
def OperandForm.value : OperandForm → Word → Word
  | .plain, m => m
  | .negated, m => neg40 m
  | .magnitude, m => abs40 m

/-- Runs an effect on the memory operand M(X), after the checks of `execute()` in their order (40_fetch_execute.md R108):
CTRL, then the address; the word is read before anything changes. -/
def withOperand (x : Addr) (s : State) (effect : Word → Result) : Result :=
  executing s (checkedAddress x (effect (s.mem.read x.toNat)))

/-- `MBR <- m` for an instruction that reads memory but whose row does not name MBR: unchanged, unless the parameter of
D3 says otherwise (10_state.md R23; log 8). -/
def State.bufferUnnamed (s : State) (m : Word) : State :=
  if mbrWrittenByMulDivPartialStor then s.withMbr m else s

/-- A taken jump to the address X, going on in the fetch state of the half the opcode names (44_jump.md R154; D2, log
7): PC and CTRL are written and nothing else. -/
def jumpTo (x : Addr) (half : Ctrl) (s : State) : Result :=
  if jumpValidatesTarget && !inMemory x.toNat then raise (.invalidAccess x.toNat)
  else .next ((s.withPc x).withCtrl half)

/-- A conditional jump that is not taken: CTRL advances and nothing else changes (40_fetch_execute.md R110; D1, log
6). -/
def jumpNotTaken (s : State) : Result := .next (if jumpNotTakenAdvances then s.advance else s)

/-- The left instruction field of a word, bits 39 to 20 (30_encoding.md R71). -/
def leftField (w : Word) : Field := selectBits w 20 20

/-- The right instruction field of a word, bits 19 to 0 (30_encoding.md R71). -/
def rightField (w : Word) : Field := selectBits w 0 20

/-- The word made of two instruction fields (30_encoding.md R71). -/
def packWord (l r : Field) : Word := l ++ r

end Sys2Proof.Machine
end

