-- ==== Sys2Proof/Machine/AddSub.lean ====
section
/-! DEFINITION. The add and subtract instructions, opcodes 5, 6, 7, 8 (42_addsub.md R130 to R135). -/

namespace Sys2Proof.Machine

/-- The common body: MBR <- Mem[X] as read, AC <- AC combined with the operand form's value, advance CTRL
(42_addsub.md R130). -/
def combineAc (op : Word → Word → Word) (form : OperandForm) (x : Addr) (s : State) : Result :=
  withOperand x s fun m => .next ((s.withMbr m).withAc (op s.ac (form.value m))).advance

/-- `ADD M(X)` (42_addsub.md R131). -/
def execAddM (x : Addr) (s : State) : Result := combineAc add40 .plain x s

/-- `SUB M(X)` (42_addsub.md R132). -/
def execSubM (x : Addr) (s : State) : Result := combineAc sub40 .plain x s

/-- `ADD |M(X)|` (42_addsub.md R133). -/
def execAddAbsM (x : Addr) (s : State) : Result := combineAc add40 .magnitude x s

/-- `SUB |M(X)|` (42_addsub.md R134). -/
def execSubAbsM (x : Addr) (s : State) : Result := combineAc sub40 .magnitude x s

end Sys2Proof.Machine
end

