-- ==== Sys2Proof/Machine/Flags.lean ====
section
/-! DEFINITION. There are no flags, no condition codes, no carry and no overflow indicator (10_state.md R35). The one
condition of the machine is the test that `JUMP+` makes on the accumulator. -/

namespace Sys2Proof.Machine

/-- The condition of `JUMP+` (opcodes 15 and 16): `AC < 2^39`, that is AC[39] = 0, "non-negative" (10_state.md R35). -/
def nonNegative (ac : Word) : Bool := !isNegative ac

end Sys2Proof.Machine
end

