-- ==== Sys2Proof/Machine/Jump.lean ====
section
/-! DEFINITION. The jump instructions, opcodes 13 to 16 (44_jump.md R154 to R160). -/

namespace Sys2Proof.Machine

/-- The common body of the conditional jumps: taken when AC is non-negative (44_jump.md R157, R158). -/
def jumpIfNonNegative (x : Addr) (half : Ctrl) (s : State) : Result :=
  executing s (if nonNegative s.ac then jumpTo x half s else jumpNotTaken s)

/-- `JUMP M(X,0:19)`: PC <- X, CTRL <- left_fetch (44_jump.md R155). -/
def execJumpLeft (x : Addr) (s : State) : Result := executing s (jumpTo x .leftFetch s)

/-- `JUMP M(X,20:39)`: PC <- X, CTRL <- right_fetch_RAM (44_jump.md R156). -/
def execJumpRight (x : Addr) (s : State) : Result := executing s (jumpTo x .rightFetchRAM s)

/-- `JUMP+ M(X,0:19)` (44_jump.md R157). -/
def execJumpPlusLeft (x : Addr) (s : State) : Result := jumpIfNonNegative x .leftFetch s

/-- `JUMP+ M(X,20:39)` (44_jump.md R158). -/
def execJumpPlusRight (x : Addr) (s : State) : Result := jumpIfNonNegative x .rightFetchRAM s

end Sys2Proof.Machine
end

