-- ==== Sys2Proof/Machine/Load.lean ====
section
/-! DEFINITION. The load instructions, opcodes 1, 2, 3, 9, 10 (41_load.md R120 to R125). -/

namespace Sys2Proof.Machine

/-- The common body of the AC loads: MBR <- Mem[X] as read, AC <- the operand form's value, advance CTRL
(41_load.md R121 to R123). -/
def loadAc (form : OperandForm) (x : Addr) (s : State) : Result :=
  withOperand x s fun m => .next ((s.withMbr m).withAc (form.value m)).advance

/-- `LOAD M(X)` (41_load.md R121). -/
def execLoadM (x : Addr) (s : State) : Result := loadAc .plain x s

/-- `LOAD -M(X)` (41_load.md R122). -/
def execLoadNegM (x : Addr) (s : State) : Result := loadAc .negated x s

/-- `LOAD |M(X)|` (41_load.md R123). -/
def execLoadAbsM (x : Addr) (s : State) : Result := loadAc .magnitude x s

/-- `LOAD MQ,M(X)`: MBR and MQ receive the word; AC is unchanged (41_load.md R124). -/
def execLoadMqM (x : Addr) (s : State) : Result :=
  withOperand x s fun m => .next ((s.withMbr m).withMq m).advance

/-- `LOAD MQ`: AC <- MQ; the address field is neither used nor validated, MBR is unchanged (41_load.md R125; D19, log
15). -/
def execLoadMq (_x : Addr) (s : State) : Result := executing s (.next (s.withAc s.mq).advance)

end Sys2Proof.Machine
end

