-- ==== Sys2Proof/Machine/MulDiv.lean ====
section
/-! DEFINITION. Multiply and divide, opcodes 11 and 12 (43_muldiv.md R140 to R147). -/

namespace Sys2Proof.Machine

/-- `MUL M(X)`: AC and MQ receive the high and the low half of the signed product of MQ and Mem[X] (43_muldiv.md R141);
MBR is unchanged (R140; D3, log 8). -/
def execMulM (x : Addr) (s : State) : Result :=
  withOperand x s fun m =>
    let p := mul80 s.mq m
    .next (((s.bufferUnnamed m).withAc p.hi).withMq p.lo).advance

/-- `DIV M(X)`: MQ receives the quotient and AC the remainder of AC by Mem[X]; `arithmeticException` when the divisor is
0, before anything changes (43_muldiv.md R145); MBR is unchanged (R140; D3, log 8). -/
def execDivM (x : Addr) (s : State) : Result :=
  withOperand x s fun d =>
    if d = 0 then raise .arithmeticException
    else .next (((s.bufferUnnamed d).withMq (divQuotient s.ac d)).withAc (divRemainder s.ac d)).advance

end Sys2Proof.Machine
end

