-- ==== Sys2Proof/Machine/Shift.lean ====
section
/-! DEFINITION. The shift instructions, opcodes 20 and 21 (46_shift.md R174 to R176): one bit, AC only; the address field
is neither used nor validated (D19, log 15). -/

namespace Sys2Proof.Machine

/-- `LSH` (46_shift.md R175). -/
def execLsh (_x : Addr) (s : State) : Result := executing s (.next (s.withAc (shiftLeft40 s.ac)).advance)

/-- `RSH` (46_shift.md R176). -/
def execRsh (_x : Addr) (s : State) : Result := executing s (.next (s.withAc (shiftRight40 s.ac)).advance)

end Sys2Proof.Machine
end

