-- ==== Sys2Proof/Machine/Store.lean ====
section
/-! DEFINITION. The store instructions, opcodes 33, 18, 19 (45_store.md R164 to R169). -/

namespace Sys2Proof.Machine

/-- The common body of the partial stores: the 12-bit field replaces the bits at `lsb` of Mem[X], every other bit is kept,
MBR is unchanged (45_store.md R166 to R168; D3, log 8). -/
def patchAddressField (lsb : Nat) (f : Addr) (x : Addr) (s : State) : Result :=
  withOperand x s fun w => .next ((s.bufferUnnamed w).withMem (s.mem.write x.toNat (splice w lsb f))).advance

/-- `STOR M(X)`: MBR and Mem[X] receive AC (45_store.md R165). -/
def execStorM (x : Addr) (s : State) : Result :=
  executing s (checkedAddress x (.next ((s.withMbr s.ac).withMem (s.mem.write x.toNat s.ac)).advance))

/-- `STOR M(X,8:19)`: bits 31 to 20 of Mem[X] receive AC[31:20] (45_store.md R166; D4, log 9). -/
def execStorLeftAddr (x : Addr) (s : State) : Result :=
  patchAddressField 20 (selectBits s.ac storLeftSrcLsb 12) x s

/-- `STOR M(X,28:39)`: bits 11 to 0 of Mem[X] receive AC[11:0] (45_store.md R167). -/
def execStorRightAddr (x : Addr) (s : State) : Result :=
  patchAddressField 0 (selectBits s.ac 0 12) x s

end Sys2Proof.Machine
end

