-- ==== Sys2Proof/Machine/Dispatch.lean ====
section
/-! DEFINITION. The dispatch of an instruction to its meaning (40_fetch_execute.md R108: `effect(IR)`). The operand `x` is
the address field in MAR (log 4). -/

namespace Sys2Proof.Machine

def exec (i : Instr) (s : State) : Host.Outcome State Fault Refusal :=
  match i with
  | .loadM x => Sys2Proof.Machine.execLoadM x s
  | .loadNegM x => Sys2Proof.Machine.execLoadNegM x s
  | .loadAbsM x => Sys2Proof.Machine.execLoadAbsM x s
  | .addM x => Sys2Proof.Machine.execAddM x s
  | .subM x => Sys2Proof.Machine.execSubM x s
  | .addAbsM x => Sys2Proof.Machine.execAddAbsM x s
  | .subAbsM x => Sys2Proof.Machine.execSubAbsM x s
  | .loadMqM x => Sys2Proof.Machine.execLoadMqM x s
  | .loadMq x => Sys2Proof.Machine.execLoadMq x s
  | .mulM x => Sys2Proof.Machine.execMulM x s
  | .divM x => Sys2Proof.Machine.execDivM x s
  | .jumpLeft x => Sys2Proof.Machine.execJumpLeft x s
  | .jumpRight x => Sys2Proof.Machine.execJumpRight x s
  | .jumpPlusLeft x => Sys2Proof.Machine.execJumpPlusLeft x s
  | .jumpPlusRight x => Sys2Proof.Machine.execJumpPlusRight x s
  | .storLeftAddr x => Sys2Proof.Machine.execStorLeftAddr x s
  | .storRightAddr x => Sys2Proof.Machine.execStorRightAddr x s
  | .lsh x => Sys2Proof.Machine.execLsh x s
  | .rsh x => Sys2Proof.Machine.execRsh x s
  | .storM x => Sys2Proof.Machine.execStorM x s

end Sys2Proof.Machine
end

