-- ==== Sys2Proof/Machine/Execute.lean ====
section
/-! DEFINITION. `execute()` (40_fetch_execute.md R106 to R109). -/

namespace Sys2Proof.Machine

/-- The instruction in flight: the opcode in IR above the address in MAR (10_state.md R25, R26; log 4). -/
def State.inFlight (s : State) : Field := makeField s.ir s.mar

/-- The address that `invalidInstruction` reports, that of the word the instruction came from: PC in `left_execute`,
PC - 1 in `right_execute` (60_exceptions.md R186; 90_conflicts.md C3). In `right_execute` with PC = 0 the spec gives no
address: a free value (log 16). -/
def failingAddress (s : State) : Addr :=
  match s.ctrl with
  | .rightExecute => if s.pc = 0 then Config.addressBeforeZero else s.pc - 1
  | _ => s.pc

/-- `execute()` (40_fetch_execute.md R108), the checks in the order of 60_exceptions.md R192: CTRL, then the opcode, then
those of the instruction's own meaning. -/
def execute (s : State) : Result :=
  executing s
    (match decode s.inFlight with
    | .ok i => exec i s
    | .error _ => raise (.invalidInstruction (failingAddress s)))

end Sys2Proof.Machine
end

