-- ==== Sys2Proof/Machine/Fetch.lean ====
section
/-! DEFINITION. `fetch()` (40_fetch_execute.md R102 to R105). -/

namespace Sys2Proof.Machine

/-- IR and MAR receive the opcode and the address of an instruction field (30_encoding.md R73). -/
def State.loadInstruction (s : State) (f : Field) : State := (s.withIr (fieldOpcode f)).withMar (fieldAddr f)

/-- The fetch from memory shared by `left_fetch` and `right_fetch_RAM`: `invalidFetch(PC)` when PC >= 1024, else the word
at PC goes to MBR and the rest of the fetch runs on it (40_fetch_execute.md R102, R104). MAR holds PC only while the word
is read, which is not observable (R102). -/
def fetchFromMemory (s : State) (rest : Word → State → State) : Result :=
  if inMemory s.pc.toNat then
    let w := s.mem.read s.pc.toNat
    .next (rest w (s.withMbr w))
  else raise (.invalidFetch (some s.pc))

/-- `fetch()` in `left_fetch` (40_fetch_execute.md R102): the left instruction to IR and MAR, the right one to IBR. -/
def fetchLeft (s : State) : Result :=
  fetchFromMemory s fun w t => ((t.loadInstruction (leftField w)).withIbr (rightField w)).withCtrl .leftExecute

/-- `fetch()` in `right_fetch` (40_fetch_execute.md R103): the instruction comes from IBR, memory is not read, PC goes up
by one. With PC = 4095 it fails with `invalidData` (D11, log 14). -/
def fetchRight (s : State) : Result :=
  if s.pc.toNat = 4095 then raise (.invalidData s.pc)
  else .next (((s.loadInstruction s.ibr).withPc (s.pc + 1)).withCtrl .rightExecute)

/-- `fetch()` in `right_fetch_RAM` (40_fetch_execute.md R104): the right instruction of the word at PC; IBR is not
written; PC goes up by one. -/
def fetchRightRAM (s : State) : Result :=
  fetchFromMemory s fun w t => ((t.loadInstruction (rightField w)).withPc (s.pc + 1)).withCtrl .rightExecute

/-- `fetch()`, by control state (40_fetch_execute.md R101 to R105). -/
def fetch (s : State) : Result :=
  match s.ctrl with
  | .leftFetch => fetchLeft s
  | .rightFetch => fetchRight s
  | .rightFetchRAM => fetchRightRAM s
  | .leftExecute | .rightExecute => raise (.invalidFetch none)

end Sys2Proof.Machine
end

