-- ==== Sys2Proof/Machine/Step.lean ====
section
/-! DEFINITION. One instruction step, and where the next instruction is taken from. -/

namespace Sys2Proof.Machine

/-- Runs the second operation on the state the first one leaves; a failure of the first is the outcome. -/
def andThen (r : Result) (f : State → Result) : Result :=
  match r with
  | .next s => f s
  | .fault k => .fault k
  | .refused k => .refused k

/-- One step: the driver of 70_reset_and_hazards.md R215 for one instruction. From a fetch state it is
`stepInstr = fetch(); execute()` (40_fetch_execute.md R116); with an instruction already in flight it is the legal call,
`execute()` (R101; log 2). The two operations also stand alone, as `fetch` and `execute`. -/
def step (s : State) : Host.Outcome State Fault Refusal :=
  if s.ctrl.isExecute then execute s else andThen (fetch s) execute

/-- The address from which a fetch from memory can be made: PC when it names a word, else 0. -/
def State.fetchable (s : State) : State := if inMemory s.pc.toNat then s else s.withPc 0

/-- `s` with this instruction where `step` takes its next one from (log 5): the left half of the word at PC in
`left_fetch`, IBR in `right_fetch`, the right half of the word at PC in `right_fetch_RAM`, IR and MAR in the execute
states. A PC from which the fetch would fail is set to 0, since the fetch needs one (log 23). -/
def State.withFetchWord (s : State) (nbits w : Nat) : State :=
  let f : Field := BitVec.ofNat 20 (w % 2 ^ nbits)
  match s.ctrl with
  | .leftFetch =>
    let t := s.fetchable
    t.withMem (t.mem.write t.pc.toNat (splice (t.mem.read t.pc.toNat) 20 f))
  | .rightFetch => (if s.pc.toNat = 4095 then s.withPc 0 else s).withIbr f
  | .rightFetchRAM =>
    let t := s.fetchable
    t.withMem (t.mem.write t.pc.toNat (splice (t.mem.read t.pc.toNat) 0 f))
  | .leftExecute | .rightExecute => s.loadInstruction f

end Sys2Proof.Machine
end

