-- ==== Sys2Proof/Machine/Text.lean ====
section
/-! DEFINITION. Text in and out of the host interface: white space, letter case and hexadecimal (30_encoding.md R86 to
R88; 80_host_interface.md R242, R243). Characters outside ASCII are neither white space nor letters with a case (log
21). -/

namespace Sys2Proof.Machine

/-- White space: blank, tab, line feed, vertical tab, form feed, carriage return (log 21). -/
def isSpace (c : Char) : Bool := c.toNat == 32 || (decide (9 ≤ c.toNat) && decide (c.toNat ≤ 13))

/-- The capital of an ASCII letter; any other character is kept. -/
def upperChar (c : Char) : Char := if 97 ≤ c.toNat ∧ c.toNat ≤ 122 then Char.ofNat (c.toNat - 32) else c

/-- The small letter of an ASCII capital; any other character is kept. -/
def lowerChar (c : Char) : Char := if 65 ≤ c.toNat ∧ c.toNat ≤ 90 then Char.ofNat (c.toNat + 32) else c

/-- The text without its white space. -/
def squeeze (t : Text) : Text := t.filter fun c => !isSpace c

/-- Text made ready for "whitespace-insensitive, case-insensitive" matching: white space out, capitals (30_encoding.md
R86). -/
def normalise (t : Text) : Text := (squeeze t).map upperChar

/-- The value of a hexadecimal digit, either case. -/
def hexDigitValue (c : Char) : Option Nat :=
  if 48 ≤ c.toNat ∧ c.toNat ≤ 57 then some (c.toNat - 48)
  else if 65 ≤ c.toNat ∧ c.toNat ≤ 70 then some (c.toNat - 55)
  else if 97 ≤ c.toNat ∧ c.toNat ≤ 102 then some (c.toNat - 87)
  else none

/-- The capital hexadecimal digit of a value below 16. -/
def hexDigit (n : Nat) : Char := Char.ofNat (if n < 10 then 48 + n else 55 + n)

/-- A number in exactly this many capital hexadecimal digits, zero-padded, most significant first (30_encoding.md R88;
80_host_interface.md R242). -/
def hexFixed : Nat → Nat → Text
  | 0, _ => []
  | k + 1, n => hexFixed k (n / 16) ++ [hexDigit (n % 16)]

/-- Reads hexadecimal digits after the number read so far. -/
def readHexFrom : Nat → Text → Option Nat
  | n, [] => some n
  | n, c :: rest =>
    match hexDigitValue c with
    | some d => readHexFrom (n * 16 + d) rest
    | none => none

/-- The number that a non-empty run of hexadecimal digits stands for. -/
def readHex : Text → Option Nat
  | [] => none
  | c :: rest => readHexFrom 0 (c :: rest)

/-- The longest run of hexadecimal digits at the start of a text, and what follows it. -/
def spanHex : Text → Text × Text
  | [] => ([], [])
  | c :: rest => if (hexDigitValue c).isSome then (c :: (spanHex rest).1, (spanHex rest).2) else ([], c :: rest)

/-- What follows a prefix, if the text begins with it. -/
def afterPrefix : Text → Text → Option Text
  | [], t => some t
  | _ :: _, [] => none
  | p :: ps, c :: cs => if p = c then afterPrefix ps cs else none

/-- The lines of a text, which a line feed ends or separates (80_host_interface.md R242, D16). -/
def textLines : Text → List Text
  | [] => [[]]
  | c :: rest =>
    if c.toNat = 10 then [] :: textLines rest
    else
      match textLines rest with
      | [] => [[c]]
      | l :: ls => (c :: l) :: ls

end Sys2Proof.Machine
end

