-- ==== Sys2Proof/Machine/Codec.lean ====
section
/-! DEFINITION. The assembler spelling of an instruction: `encode(text)` and `decode(field)` (30_encoding.md R85 to R88).
The hardware never sees text; the host's attribute layer uses this codec (80_host_interface.md R236, R238). -/

namespace Sys2Proof.Machine

/-- A mnemonic template: the text before the address placeholder and the text after it, or no placeholder
(30_encoding.md R85). -/
structure Template where
  /-- The opcode the template stands for. -/
  opcode : Opcode
  /-- The text before the placeholder, or the whole template. -/
  before : Text
  /-- The text after the placeholder, if there is a placeholder. -/
  after : Option Text
deriving DecidableEq, Repr

/-- The 20 templates in the ASCII spelling of 30_encoding.md R74 and R85 (D13). -/
def templates : List Template :=
  [⟨1, "LOAD M(".toList, some ")".toList⟩, ⟨2, "LOAD -M(".toList, some ")".toList⟩,
   ⟨3, "LOAD |M(".toList, some ")|".toList⟩, ⟨5, "ADD M(".toList, some ")".toList⟩,
   ⟨6, "SUB M(".toList, some ")".toList⟩, ⟨7, "ADD |M(".toList, some ")|".toList⟩,
   ⟨8, "SUB |M(".toList, some ")|".toList⟩, ⟨9, "LOAD MQ,M(".toList, some ")".toList⟩,
   ⟨10, "LOAD MQ".toList, none⟩, ⟨11, "MUL M(".toList, some ")".toList⟩,
   ⟨12, "DIV M(".toList, some ")".toList⟩, ⟨13, "JUMP M(".toList, some ",0:19)".toList⟩,
   ⟨14, "JUMP M(".toList, some ",20:39)".toList⟩, ⟨15, "JUMP+ M(".toList, some ",0:19)".toList⟩,
   ⟨16, "JUMP+ M(".toList, some ",20:39)".toList⟩, ⟨18, "STOR M(".toList, some ",8:19)".toList⟩,
   ⟨19, "STOR M(".toList, some ",28:39)".toList⟩, ⟨20, "LSH".toList, none⟩,
   ⟨21, "RSH".toList, none⟩, ⟨33, "STOR M(".toList, some ")".toList⟩]

/-- Reads the placeholder from normalised text: an optional `0X` and a run of hexadecimal digits, or nothing, which
means 0 (30_encoding.md R86). Answers the number and what follows. -/
def readPlaceholder (t : Text) : Option (Nat × Text) :=
  match afterPrefix "0X".toList t with
  | some rest => (readHex (spanHex rest).1).map fun n => (n, (spanHex rest).2)
  | none =>
    match (spanHex t).1 with
    | [] => some (0, t)
    | c :: run => (readHex (c :: run)).map fun n => (n, (spanHex t).2)

/-- Matches the whole of a normalised text against a template and answers the address (30_encoding.md R87). -/
def Template.matchWhole (p : Template) (t : Text) : Option Nat :=
  match afterPrefix (normalise p.before) t with
  | none => none
  | some rest =>
    match p.after with
    | none => if rest = [] then some 0 else none
    | some tail =>
      match readPlaceholder rest with
      | none => none
      | some (n, left) => if left = normalise tail then some n else none

/-- The first template that matches, with the address read. At most one matches (30_encoding.md R87). -/
def matchTemplates (t : Text) : List Template → Option (Template × Nat)
  | [] => none
  | p :: ps =>
    match p.matchWhole t with
    | some n => some (p, n)
    | none => matchTemplates t ps

/-- `encode(text)`: `invalidInstructionString` when no template matches the whole text, `invalidInstructionAddress` when
the address is 1024 or more, else `opcode * 4096 + address` (30_encoding.md R87). -/
def encodeText (t : Text) : Except Fault Field :=
  match matchTemplates (normalise t) templates with
  | none => .error .invalidInstructionString
  | some (p, n) =>
    if inMemory n then .ok (makeField p.opcode (BitVec.ofNat 12 n)) else .error .invalidInstructionAddress

/-- `decode(field)`: the template with the address in three capital hexadecimal digits (D14), or the empty text for an
undefined opcode (D15) (30_encoding.md R88). -/
def decodeText (f : Field) : Text :=
  match templates.find? fun p => p.opcode == fieldOpcode f with
  | none => []
  | some p =>
    match p.after with
    | none => p.before
    | some tail => p.before ++ hexFixed 3 (fieldAddr f).toNat ++ tail

end Sys2Proof.Machine
end

