-- ==== Sys2Proof/Machine/Resets.lean ====
section
/-! DEFINITION. The reset operations (70_reset_and_hazards.md R210 to R213). Power-on is `State.reset`
(10_state.md R40). None can fail. -/

namespace Sys2Proof.Machine

/-- `reset()`: PC <- 0, CTRL <- left_fetch, everything else is kept (70_reset_and_hazards.md R210). -/
def resetCall (s : State) : State := (s.withPc 0).withCtrl .leftFetch

/-- `zeroAllRegisters()`: the seven registers to 0 and, by the parameter of D10, CTRL to `left_fetch`; memory is kept
(70_reset_and_hazards.md R211; log 13). -/
def zeroAllRegisters (s : State) : State :=
  let t := ((((((s.withPc 0).withMar 0).withIr 0).withIbr 0).withMbr 0).withAc 0).withMq 0
  if zeroRegsResetsCtrl then t.withCtrl .leftFetch else t

/-- `zeroAllRAM()`: every word to 0; registers and CTRL are kept (70_reset_and_hazards.md R212). -/
def zeroAllRAM (s : State) : State := s.withMem ⟨[]⟩

end Sys2Proof.Machine
end

