-- ==== Sys2Proof/Machine/HostPort.lean ====
section
/-! DEFINITION. The host interface: the operations a driver can invoke, each one atomic transition (80_host_interface.md
R230, R231), with the attribute layer (R233 to R240) and the bulk text (R242, R243). -/

namespace Sys2Proof.Machine

/-! ### Values and attributes -/

/-- A value exchanged with the host. A number written as text is held as the number it denotes, with its notation: the
spec fixes no digit count for it (log 20). -/
inductive HostValue where
  /-- A non-negative integer (the raw form). -/
  | num (n : Nat)
  /-- Hexadecimal text denoting `n` (the hex form). -/
  | hex (n : Nat)
  /-- Signed decimal text denoting `z` (`wordvalue`). -/
  | signed (z : Int)
  /-- Signed hexadecimal text denoting `z` (`wordvaluehex`). -/
  | signedHex (z : Int)
  /-- Any other text: mnemonic text, a control-state name, a dump. -/
  | text (t : Text)
deriving DecidableEq, Repr

/-- The half of a word a view looks at (80_host_interface.md R234). -/
inductive Side where
  /-- Bits 39 to 20. -/
  | left
  /-- Bits 19 to 0. -/
  | right
deriving DecidableEq, Repr

/-- The part of an instruction field a view looks at (80_host_interface.md R234). -/
inductive Part where
  /-- The 8-bit opcode. -/
  | opcode
  /-- The 12-bit address. -/
  | addr
  /-- The whole 20-bit field. -/
  | instruction
deriving DecidableEq, Repr

/-- The representation of a view (80_host_interface.md R235). -/
inductive Form where
  /-- The raw integer, no suffix. -/
  | raw
  /-- Hexadecimal text, suffix `hex`. -/
  | hex
  /-- Mnemonic text, suffix `text`. -/
  | text
deriving DecidableEq, Repr

/-- An attribute of the naming scheme of 80_host_interface.md R235. -/
inductive Attr where
  /-- `<left|right><opcode|addr|instruction><|hex|text>`. -/
  | view (side : Side) (part : Part) (form : Form)
  /-- `wordvalue`. -/
  | wordValue
  /-- `wordvaluehex`. -/
  | wordValueHex
deriving DecidableEq, Repr

/-- The name of a side in an attribute name. -/
def Side.name : Side → Text
  | .left => "left".toList
  | .right => "right".toList

/-- The name of a part in an attribute name. -/
def Part.name : Part → Text
  | .opcode => "opcode".toList
  | .addr => "addr".toList
  | .instruction => "instruction".toList

/-- The suffix of a form in an attribute name. -/
def Form.suffix : Form → Text
  | .raw => []
  | .hex => "hex".toList
  | .text => "text".toList

/-- The attribute's name (80_host_interface.md R235). -/
def Attr.name : Attr → Text
  | .view side part form => side.name ++ part.name ++ form.suffix
  | .wordValue => "wordvalue".toList
  | .wordValueHex => "wordvaluehex".toList

/-- Every attribute of the scheme (80_host_interface.md R235). -/
def allAttrs : List Attr :=
  ([Side.left, Side.right].flatMap fun side => [Part.opcode, Part.addr, Part.instruction].flatMap fun part =>
    [Form.raw, Form.hex, Form.text].map fun form => Attr.view side part form) ++ [.wordValue, .wordValueHex]

/-- Whether the attribute exists: the four names the spec gives do; of the others the set `ATTR_NAMES` is open, a free
value (80_host_interface.md R235, D20; log 19). -/
def Attr.listed (a : Attr) : Bool :=
  [Attr.view .left .opcode .raw, .view .right .addr .hex, .wordValue, .view .left .instruction .text].contains a
    || Config.attrNameExists a.name

/-- The attribute of a name, "matched case-insensitively" (80_host_interface.md R233). -/
def findAttr (name : Text) : Option Attr := allAttrs.find? fun a => a.name == name.map lowerChar && a.listed

/-- The lowest bit of a part inside an instruction field (80_host_interface.md R234). -/
def Part.lsb : Part → Nat
  | .opcode => 12
  | .addr | .instruction => 0

/-- The width of a part (80_host_interface.md R234). -/
def Part.width : Part → Nat
  | .opcode => 8
  | .addr => 12
  | .instruction => 20

/-- The lowest bit of a half of a word (80_host_interface.md R234). -/
def Side.base : Side → Nat
  | .left => 20
  | .right => 0

/-- The values that an opcode or an address attribute can write: a defined opcode, any 12-bit address
(80_host_interface.md R238). -/
def partValues (isOpcode : Bool) : List Nat := if isOpcode then definedOpcodes.map BitVec.toNat else List.range (2 ^ 12)

/-- The text form of an opcode field or of an address field, a free value (log 20). -/
def partText (isOpcode : Bool) (n : Nat) : Text :=
  if isOpcode && !opcodeDefined (BitVec.ofNat 8 n) then Config.undefinedOpcodeText n
  else Config.spelling isOpcode (hexFixed 3 n)

/-- The field that such a text stands for: the value whose text form it is, so that what was written reads back
(80_host_interface.md R240), and for any other text a free value (log 20). -/
def partOfText (isOpcode : Bool) (t : Text) : Option Nat :=
  ((partValues isOpcode).find? fun n => partText isOpcode n == t).or (Config.otherPartText isOpcode t)

/-- The field -> value conversion (80_host_interface.md R236). The text form of an opcode or of an address is a free
value (log 20). -/
def valueOfField (part : Part) (form : Form) (n : Nat) : HostValue :=
  match form, part with
  | .raw, _ => .num n
  | .hex, _ => .hex n
  | .text, .instruction => .text (decodeText (BitVec.ofNat 20 n))
  | .text, .opcode => .text (partText true n)
  | .text, .addr => .text (partText false n)

/-- A number that a text may stand for, or the failure. -/
def orFail (n : Option Nat) (bad : Fault) : Except Fault Nat :=
  match n with
  | some n => .ok n
  | none => .error bad

/-- The value -> field conversion (80_host_interface.md R238); mnemonic text goes through `encode`, whose own failure is
reported. A value of another kind than the form takes fails the attribute's validator (log 20). -/
def fieldOfValue (part : Part) (form : Form) (v : HostValue) (bad : Fault) : Except Fault Nat :=
  match form, v, part with
  | .raw, .num n, _ => .ok n
  | .hex, .hex n, _ => .ok n
  | .text, .text t, .instruction => (encodeText t).map BitVec.toNat
  | .text, .text t, .opcode => orFail (partOfText true t) bad
  | .text, .text t, .addr => orFail (partOfText false t) bad
  | _, _, _ => .error bad

/-- The validators (80_host_interface.md R238): an opcode must be defined, an address must be below 4096. An instruction
field has only the generic range check, which fails with `invalidNumber` (R191; log 20). -/
def validateField (part : Part) (n : Nat) (bad : Fault) : Except Fault Nat :=
  match part with
  | .opcode => if n < 256 ∧ opcodeDefined (BitVec.ofNat 8 n) then .ok n else .error bad
  | .addr => if n < 4096 then .ok n else .error bad
  | .instruction => if n < 2 ^ 20 then .ok n else .error .invalidNumber

/-- Converts and validates a value for a part. -/
def checkedField (part : Part) (form : Form) (v : HostValue) (bad : Fault) : Except Fault Nat :=
  match fieldOfValue part form v bad with
  | .ok n => validateField part n bad
  | .error k => .error k

/-! ### Views of a word and of a half-word register -/

/-- A view of a word (80_host_interface.md R234, R236). -/
def viewWord (side : Side) (part : Part) (form : Form) (w : Word) : HostValue :=
  valueOfField part form (selectBits w (side.base + part.lsb) part.width).toNat

/-- The word with the field of a view replaced, "preserving all other bits" (80_host_interface.md R238). -/
def patchWord (side : Side) (part : Part) (w : Word) (n : Nat) : Word :=
  splice w (side.base + part.lsb) (BitVec.ofNat part.width n)

/-- A view of a register that holds one half only; left and right name the same bits (80_host_interface.md R237). -/
def viewHalf (part : Part) (form : Form) (h : Field) : HostValue :=
  valueOfField part form (h.extractLsb' part.lsb part.width).toNat

/-- The half with the field of a part replaced. -/
def patchHalf (part : Part) (h : Field) (n : Nat) : Field :=
  rightField (splice (packWord 0 h) part.lsb (BitVec.ofNat part.width n))

/-- The signed text range of a word value: -2^39 to 2^39 - 1 (80_host_interface.md R238). -/
def wordOfSigned (z : Int) (bad : Fault) : Except Fault Word :=
  if -(Config.signWeight : Int) ≤ z ∧ z < (Config.signWeight : Int) then .ok (BitVec.ofInt 40 z) else .error bad

/-- The value of an attribute of a 40-bit register (80_host_interface.md R236). -/
def readWordAttr (a : Attr) (w : Word) : HostValue :=
  match a with
  | .view side part form => viewWord side part form w
  | .wordValue => .signed (sval w)
  | .wordValueHex => .signedHex (sval w)

/-- A 40-bit register with an attribute written (80_host_interface.md R238). -/
def writeWordAttr (a : Attr) (v : HostValue) (w : Word) (bad : Fault) : Except Fault Word :=
  match a, v with
  | .view side part form, v => (checkedField part form v bad).map (patchWord side part w)
  | .wordValue, .signed z => wordOfSigned z bad
  | .wordValueHex, .signedHex z => wordOfSigned z bad
  | .wordValue, _ => .error bad
  | .wordValueHex, _ => .error bad

/-! ### Registers by name -/

/-- The registers and CTRL, as the host names them (10_state.md R20). -/
inductive Reg where
  /-- PC. -/
  | pc
  /-- MAR. -/
  | mar
  /-- IR. -/
  | ir
  /-- IBR. -/
  | ibr
  /-- MBR. -/
  | mbr
  /-- AC. -/
  | ac
  /-- MQ. -/
  | mq
  /-- CTRL. -/
  | ctrl
deriving DecidableEq, Repr

/-- The name of a register, in small letters as the spec writes "ctrl" (80_host_interface.md R239; log 25). -/
def Reg.name : Reg → Text
  | .pc => "pc".toList
  | .mar => "mar".toList
  | .ir => "ir".toList
  | .ibr => "ibr".toList
  | .mbr => "mbr".toList
  | .ac => "ac".toList
  | .mq => "mq".toList
  | .ctrl => "ctrl".toList

/-- Every register the host can name. -/
def allRegs : List Reg := [.pc, .mar, .ir, .ibr, .mbr, .ac, .mq, .ctrl]

/-- The register of a name, in either letter case (log 25). -/
def findReg (name : Text) : Option Reg := allRegs.find? fun r => r.name == name.map lowerChar

/-- The control-state names (10_state.md R28). -/
def Ctrl.name : Ctrl → Text
  | .leftFetch => "left_fetch".toList
  | .rightFetch => "right_fetch".toList
  | .rightFetchRAM => "right_fetch_RAM".toList
  | .leftExecute => "left_execute".toList
  | .rightExecute => "right_execute".toList

/-- The control state of exactly this name (80_host_interface.md R239; log 25). -/
def findCtrl (t : Text) : Option Ctrl :=
  [Ctrl.leftFetch, .rightFetch, .rightFetchRAM, .leftExecute, .rightExecute].find? fun c => c.name == t

/-- Whether an attribute is legal for a register: every one for AC, MQ and MBR; the views for IBR; the address views for
PC and MAR; the opcode views for IR (80_host_interface.md R234, R236, R237; log 18). -/
def Reg.takes (r : Reg) (a : Attr) : Bool :=
  match r, a with
  | .ac, _ | .mq, _ | .mbr, _ => true
  | .ibr, .view _ _ _ => true
  | .pc, .view _ .addr _ | .mar, .view _ .addr _ => true
  | .ir, .view _ .opcode _ => true
  | _, _ => false

/-- The value of a legal attribute of a register (80_host_interface.md R236, R237). IR's eight bits stand where an opcode
stands in an instruction field, PC's and MAR's twelve where an address does. -/
def readReg (r : Reg) (a : Attr) (s : State) : Except Fault HostValue :=
  match r, a with
  | .ac, a => .ok (readWordAttr a s.ac)
  | .mq, a => .ok (readWordAttr a s.mq)
  | .mbr, a => .ok (readWordAttr a s.mbr)
  | .ibr, .view _ part form => .ok (viewHalf part form s.ibr)
  | .pc, .view _ part form => .ok (viewHalf part form (makeField 0 s.pc))
  | .mar, .view _ part form => .ok (viewHalf part form (makeField 0 s.mar))
  | .ir, .view _ part form => .ok (viewHalf part form (makeField s.ir 0))
  | _, _ => .error .invalidCPURegisterAttribute

/-- The state with a legal attribute of a register written (80_host_interface.md R238). -/
def writeReg (r : Reg) (a : Attr) (v : HostValue) (s : State) : Except Fault State :=
  match r, a with
  | .ac, a => (writeWordAttr a v s.ac .invalidCPUAttributeValue).map s.withAc
  | .mq, a => (writeWordAttr a v s.mq .invalidCPUAttributeValue).map s.withMq
  | .mbr, a => (writeWordAttr a v s.mbr .invalidCPUAttributeValue).map s.withMbr
  | .ibr, .view _ part form =>
    (checkedField part form v .invalidCPUAttributeValue).map fun n => s.withIbr (patchHalf part s.ibr n)
  | .pc, .view _ part form =>
    (checkedField part form v .invalidCPUAttributeValue).map fun n =>
      s.withPc (fieldAddr (patchHalf part (makeField 0 s.pc) n))
  | .mar, .view _ part form =>
    (checkedField part form v .invalidCPUAttributeValue).map fun n =>
      s.withMar (fieldAddr (patchHalf part (makeField 0 s.mar) n))
  | .ir, .view _ part form =>
    (checkedField part form v .invalidCPUAttributeValue).map fun n =>
      s.withIr (fieldOpcode (patchHalf part (makeField s.ir 0) n))
  | _, _ => .error .invalidCPURegisterAttribute

/-- `getCPU(register, attribute)` (80_host_interface.md R236, R237). CTRL's value is its name, whatever the attribute. -/
def getCPU (reg attr : Text) (s : State) : Except Fault HostValue :=
  match findReg reg with
  | none => .error .invalidRegister
  | some .ctrl => .ok (.text s.ctrl.name)
  | some r =>
    match findAttr attr with
    | none => .error .invalidCPURegisterAttribute
    | some a => if r.takes a then readReg r a s else .error .invalidCPURegisterAttribute

/-- `setCPU(register, attribute, value)` (80_host_interface.md R238); CTRL is replaced wholesale by one of its five names
and the attribute is ignored (R239). -/
def setCPU (reg attr : Text) (v : HostValue) (s : State) : Except Fault State :=
  match findReg reg with
  | none => .error .invalidRegister
  | some .ctrl =>
    match v with
    | .text t =>
      match findCtrl t with
      | some c => .ok (s.withCtrl c)
      | none => .error .invalidCPUState
    | _ => .error .invalidCPUState
  | some r =>
    match findAttr attr with
    | none => .error .invalidCPURegisterAttribute
    | some a => if r.takes a then writeReg r a v s else .error .invalidCPURegisterAttribute

/-- The view of memory that an attribute name stands for; the word values are "legal only for those three registers"
(80_host_interface.md R236). -/
def memoryView (attr : Text) : Except Fault (Side × Part × Form) :=
  match findAttr attr with
  | some (.view side part form) => .ok (side, part, form)
  | _ => .error .invalidMemoryAttribute

/-- `getRAM(address, attribute)` (80_host_interface.md R236): the address is checked first (D21, log 18). -/
def getRAM (a : Nat) (attr : Text) (s : State) : Except Fault HostValue :=
  if inMemory a then (memoryView attr).map fun v => viewWord v.1 v.2.1 v.2.2 (s.mem.read a)
  else .error (.invalidAccess a)

/-- `setRAM(address, attribute, value)` (80_host_interface.md R238). -/
def setRAM (a : Nat) (attr : Text) (v : HostValue) (s : State) : Except Fault State :=
  if inMemory a then
    match memoryView attr with
    | .ok (side, part, form) =>
      (checkedField part form v .invalidAttributeValue).map fun n =>
        s.withMem (s.mem.write a (patchWord side part (s.mem.read a) n))
    | .error k => .error k
  else .error (.invalidAccess a)

/-! ### Bulk text -/

/-- One line of `dumpRAM()`: three digits of address, then the four fields in 2, 3, 2 and 3 digits, one blank between and
a line feed after (80_host_interface.md R242, D16). -/
def dumpLine (a : Nat) (w : Word) : Text :=
  let blank := Char.ofNat 32
  hexFixed 3 a ++ blank :: hexFixed 2 (fieldOpcode (leftField w)).toNat
    ++ blank :: hexFixed 3 (fieldAddr (leftField w)).toNat
    ++ blank :: hexFixed 2 (fieldOpcode (rightField w)).toNat
    ++ blank :: hexFixed 3 (fieldAddr (rightField w)).toNat ++ [Char.ofNat 10]

/-- `dumpRAM()`: "exactly one line per address 0..1023, in address order" (80_host_interface.md R242). -/
def dumpRAM (m : Memory) : Text := (List.range Config.memWords).flatMap fun a => dumpLine a (m.read a)

/-- One line of `loadRAM`, by its 1-based number: nothing for a blank line, else the address and the word, or the
failure (80_host_interface.md R243, D21; log 22). -/
def readMapLine (n : Nat) (line : Text) : Except Fault (Option Cell) :=
  if line.all isSpace then .ok none
  else
    match readHex (spanHex line).1, (spanHex line).2 with
    | some a, c :: rest =>
      if isSpace c then
        match readHex (squeeze rest) with
        | some v =>
          if inMemory a && decide (v < Config.wordMod) then .ok (some (a, wrap40 v)) else .error .invalidNumber
        | none => .error (.invalidMap n)
      else .error (.invalidMap n)
    | _, _ => .error (.invalidMap n)

/-- The cells that the lines name, in their order, or the failure of the first line that has one. -/
def readMap : Nat → List Text → Except Fault (List Cell)
  | _, [] => .ok []
  | n, line :: lines =>
    match readMapLine n line with
    | .error k => .error k
    | .ok c =>
      match readMap (n + 1) lines with
      | .error k => .error k
      | .ok cs => .ok (c.toList ++ cs)

/-- Writes the cells into a memory, in their order. -/
def writeCells (m : Memory) : List Cell → Memory
  | [] => m
  | (a, v) :: rest => writeCells (m.write a v) rest

/-- `loadRAM(text)`: every line is validated before any word is written; a word that no line names keeps its value
(80_host_interface.md R243, D21). -/
def loadRAM (t : Text) (s : State) : Except Fault State :=
  (readMap 1 (textLines t)).map fun cs => s.withMem (writeCells s.mem cs)

/-- `dumpCPU()`: text the spec does not describe, a free value (80_host_interface.md R241; log 24). -/
def dumpCPU (s : State) : Text := Config.dumpCpuText s.pc s.mar s.ir s.ibr s.mbr s.ac s.mq s.ctrl.name

/-! ### The request port -/

/-- The operations a driver can invoke (80_host_interface.md R230). -/
inductive Request where
  /-- `fetch()`. -/
  | fetch
  /-- `execute()`. -/
  | execute
  /-- `reset()`. -/
  | reset
  /-- `zeroAllRegisters()`. -/
  | zeroAllRegisters
  /-- `zeroAllRAM()`. -/
  | zeroAllRAM
  /-- `getRAM(address, attribute)`. -/
  | getRAM (a : Nat) (attr : Text)
  /-- `setRAM(address, attribute, value)`. -/
  | setRAM (a : Nat) (attr : Text) (v : HostValue)
  /-- `getCPU(register, attribute)`. -/
  | getCPU (reg attr : Text)
  /-- `setCPU(register, attribute, value)`. -/
  | setCPU (reg attr : Text) (v : HostValue)
  /-- `dumpRAM()`. -/
  | dumpRAM
  /-- `loadRAM(text)`. -/
  | loadRAM (t : Text)
  /-- `dumpCPU()`. -/
  | dumpCPU
deriving DecidableEq, Repr

/-- What the block answers (80_host_interface.md R231). -/
inductive Reply where
  /-- Success without a value. -/
  | done
  /-- Success with a value. -/
  | value (v : HostValue)
  /-- A failure of this kind. -/
  | failed (k : Fault)
  /-- The model has no meaning for what was asked; never answered, since every instruction is modelled. -/
  | refused (r : Refusal)
deriving DecidableEq, Repr

/-- The answer to a stepping operation; a failure leaves the state as it was before the call (60_exceptions.md R181). -/
def answerStep (s : State) (r : Result) : State × Reply :=
  match r with
  | .next t => (t, .done)
  | .fault k => (s, .failed k)
  | .refused k => (s, .refused k)

/-- The answer to an operation that writes. -/
def answerWrite (s : State) (r : Except Fault State) : State × Reply :=
  match r with
  | .ok t => (t, .done)
  | .error k => (s, .failed k)

/-- The answer to an operation that reads. -/
def answerRead (s : State) (r : Except Fault HostValue) : State × Reply :=
  match r with
  | .ok v => (s, .value v)
  | .error k => (s, .failed k)

/-- One request, one atomic transition: the state after it and the answer (80_host_interface.md R230, R231). -/
def perform (r : Request) (s : State) : State × Reply :=
  match r with
  | .fetch => answerStep s (fetch s)
  | .execute => answerStep s (execute s)
  | .reset => (resetCall s, .done)
  | .zeroAllRegisters => (zeroAllRegisters s, .done)
  | .zeroAllRAM => (zeroAllRAM s, .done)
  | .getRAM a attr => answerRead s (getRAM a attr s)
  | .setRAM a attr v => answerWrite s (setRAM a attr v s)
  | .getCPU reg attr => answerRead s (getCPU reg attr s)
  | .setCPU reg attr v => answerWrite s (setCPU reg attr v s)
  | .dumpRAM => (s, .value (.text (dumpRAM s.mem)))
  | .loadRAM t => answerWrite s (loadRAM t s)
  | .dumpCPU => (s, .value (.text (dumpCPU s)))

/-- The state after a sequence of requests, whatever they answer: the driver decides what to do about a failure
(60_exceptions.md R180). -/
def performAll : List Request → State → State
  | [], s => s
  | r :: rest, s => performAll rest (perform r s).1

end Sys2Proof.Machine
end

