-- ==== Sys2Proof/Safety.lean ====
section
/-! DEFINITION. What a run is, when it has ended well, and which states a run can be in (70_reset_and_hazards.md R216;
10_state.md R31, R34, R37). -/

namespace Sys2Proof.Machine

/-- The two stepping operations that a run is made of (70_reset_and_hazards.md R216). -/
inductive Call where
  /-- `fetch()`. -/
  | fetch
  /-- `execute()`. -/
  | execute
deriving DecidableEq, Repr

/-- One call. -/
def Call.run : Call → State → Result
  | .fetch, s => Sys2Proof.Machine.fetch s
  | .execute, s => Sys2Proof.Machine.execute s

/-- A run: "a finite sequence of `fetch()`/`execute()` calls", ending at the first fault (70_reset_and_hazards.md R216). -/
def runCalls : List Call → State → Result
  | [], s => .next s
  | c :: cs, s => andThen (c.run s) (runCalls cs)

/-- The designated idle point of the halt address `h`: CTRL = left_fetch, PC = h, and the left instruction of word h is
the jump to itself, `13 * 4096 + h` (70_reset_and_hazards.md R216). -/
def State.idleAt (s : State) (h : Addr) : Bool :=
  decide (s.ctrl = .leftFetch) && decide (s.pc = h) && inMemory h.toNat
    && decide ((leftField (s.mem.read h.toNat)).toNat = 13 * 4096 + h.toNat)

/-- A run ends well when it meets no fault and reaches its idle point (70_reset_and_hazards.md R216). -/
def endsWell (h : Addr) (calls : List Call) (s : State) : Prop := ∃ t, runCalls calls s = .next t ∧ t.idleAt h = true

/-- What holds of PC in each control state when no host write has intervened: the word whose left instruction was fetched
exists, and in `right_execute` PC is one past an existing word (10_state.md R32, R34). Host writes can break it
(80_host_interface.md R239). -/
def State.sequenced (s : State) : Bool :=
  match s.ctrl with
  | .leftFetch | .rightFetchRAM => true
  | .leftExecute | .rightFetch => decide (s.pc.toNat < Config.memWords)
  | .rightExecute => decide (1 ≤ s.pc.toNat) && decide (s.pc.toNat ≤ Config.memWords)

/-- The invariant of every run: canonical memory and a sequenced PC. -/
def State.inv (s : State) : Bool := s.mem.wf && s.sequenced

/-- Whether a request can change a register other than through the machine's own rules: `setCPU`, the one host write that
`sequenced` does not survive (80_host_interface.md R239). -/
def Request.patchesRegister : Request → Bool
  | .setCPU _ _ _ => true
  | _ => false

/-- The failure kinds that "can come out of `fetch()` and `execute()` from any state reachable from reset"
(60_exceptions.md R183). -/
def Fault.fromEngine : Fault → Bool
  | .invalidFetch _ | .invalidExecution | .invalidInstruction _ | .invalidAccess _ | .arithmeticException => true
  | _ => false

end Sys2Proof.Machine
end

