-- ==== Sys2Proof/Certificates/Slice0/Obligations.lean ====
section
/-! DEFINITION. The statements for the provers. Each docstring names the rule of spec/ it formalises, or, for a derived
statement, the section it rests on and the log entry of every choice in it. -/

open Sys2Proof Sys2Proof.Machine

/-- 41_load.md R121. `x` is the address field, which MAR holds when the instruction runs (log 4). -/
def Obligations.LoadCopiesMemoryWordIntoMbrAndAc : Prop :=
  ∀ (x : Addr) (s : State), (s.ctrl = .leftExecute ∨ s.ctrl = .rightExecute) →
    (x.toNat < 1024 → exec (.loadM x) s = .next
      { s with mbr := s.mem.read x.toNat, ac := s.mem.read x.toNat,
               ctrl := if s.ctrl = .leftExecute then .rightFetch else .leftFetch })
    ∧ (1024 ≤ x.toNat → exec (.loadM x) s = .fault (.invalidAccess x.toNat))

/-- 41_load.md R122. -/
def Obligations.LoadNegativePutsTwosComplementInAc : Prop :=
  ∀ (x : Addr) (s : State), (s.ctrl = .leftExecute ∨ s.ctrl = .rightExecute) →
    (x.toNat < 1024 → exec (.loadNegM x) s = .next
      { s with mbr := s.mem.read x.toNat,
               ac := BitVec.ofNat 40 ((2 ^ 40 - (s.mem.read x.toNat).toNat) % 2 ^ 40),
               ctrl := if s.ctrl = .leftExecute then .rightFetch else .leftFetch })
    ∧ (1024 ≤ x.toNat → exec (.loadNegM x) s = .fault (.invalidAccess x.toNat))

/-- 41_load.md R123. -/
def Obligations.LoadAbsolutePutsMagnitudeInAc : Prop :=
  ∀ (x : Addr) (s : State), (s.ctrl = .leftExecute ∨ s.ctrl = .rightExecute) →
    (x.toNat < 1024 → exec (.loadAbsM x) s = .next
      { s with mbr := s.mem.read x.toNat,
               ac := if (s.mem.read x.toNat).toNat < 2 ^ 39 then s.mem.read x.toNat
                 else BitVec.ofNat 40 (2 ^ 40 - (s.mem.read x.toNat).toNat),
               ctrl := if s.ctrl = .leftExecute then .rightFetch else .leftFetch })
    ∧ (1024 ≤ x.toNat → exec (.loadAbsM x) s = .fault (.invalidAccess x.toNat))

/-- 41_load.md R124. -/
def Obligations.LoadMqFromMemoryKeepsAc : Prop :=
  ∀ (x : Addr) (s : State), (s.ctrl = .leftExecute ∨ s.ctrl = .rightExecute) →
    (x.toNat < 1024 → exec (.loadMqM x) s = .next
      { s with mbr := s.mem.read x.toNat, mq := s.mem.read x.toNat,
               ctrl := if s.ctrl = .leftExecute then .rightFetch else .leftFetch })
    ∧ (1024 ≤ x.toNat → exec (.loadMqM x) s = .fault (.invalidAccess x.toNat))

/-- 41_load.md, LOAD MQ. That a field of 1024 to 4095 is not validated is the spec's own decision D19 (log 15). -/
def Obligations.LoadMqCopiesMqIntoAcForEveryAddressField : Prop :=
  ∀ (x : Addr) (s : State), (s.ctrl = .leftExecute ∨ s.ctrl = .rightExecute) →
    exec (.loadMq x) s = .next { s with ac := s.mq, ctrl := if s.ctrl = .leftExecute then .rightFetch else .leftFetch }

/-- 42_addsub.md R131. -/
def Obligations.AddSumsModuloTwoToTheForty : Prop :=
  ∀ (x : Addr) (s : State), (s.ctrl = .leftExecute ∨ s.ctrl = .rightExecute) →
    (x.toNat < 1024 → exec (.addM x) s = .next
      { s with mbr := s.mem.read x.toNat, ac := BitVec.ofNat 40 ((s.ac.toNat + (s.mem.read x.toNat).toNat) % 2 ^ 40),
               ctrl := if s.ctrl = .leftExecute then .rightFetch else .leftFetch })
    ∧ (1024 ≤ x.toNat → exec (.addM x) s = .fault (.invalidAccess x.toNat))

/-- 42_addsub.md R132. -/
def Obligations.SubtractDifferenceModuloTwoToTheForty : Prop :=
  ∀ (x : Addr) (s : State), (s.ctrl = .leftExecute ∨ s.ctrl = .rightExecute) →
    (x.toNat < 1024 → exec (.subM x) s = .next
      { s with mbr := s.mem.read x.toNat, ac := BitVec.ofNat 40 ((s.ac.toNat + 2 ^ 40 - (s.mem.read x.toNat).toNat) % 2 ^ 40),
               ctrl := if s.ctrl = .leftExecute then .rightFetch else .leftFetch })
    ∧ (1024 ≤ x.toNat → exec (.subM x) s = .fault (.invalidAccess x.toNat))

/-- 42_addsub.md, opcodes 7 and 8; the magnitude is D7's (log 12). -/
def Obligations.AddAndSubtractMagnitudes : Prop :=
  ∀ (x : Addr) (s : State), (s.ctrl = .leftExecute ∨ s.ctrl = .rightExecute) → x.toNat < 1024 →
    exec (.addAbsM x) s = .next
      { s with mbr := s.mem.read x.toNat,
               ac := BitVec.ofNat 40 (s.ac.toNat + (s.mem.read x.toNat).toInt.natAbs),
               ctrl := if s.ctrl = .leftExecute then .rightFetch else .leftFetch }
    ∧ exec (.subAbsM x) s = .next
      { s with mbr := s.mem.read x.toNat,
               ac := BitVec.ofNat 40 (s.ac.toNat + 2 ^ 40 - (s.mem.read x.toNat).toInt.natAbs),
               ctrl := if s.ctrl = .leftExecute then .rightFetch else .leftFetch }

/-- 42_addsub.md R135. -/
def Obligations.AddAndSubtractAgreeWithSignedArithmeticInRange : Prop :=
  ∀ (x : Addr) (s : State), (s.ctrl = .leftExecute ∨ s.ctrl = .rightExecute) → x.toNat < 1024 →
    (∃ t, exec (.addM x) s = .next t
      ∧ (t.ac.toInt - (s.ac.toInt + (s.mem.read x.toNat).toInt)) % 2 ^ 40 = 0
      ∧ (t.ac.toInt = s.ac.toInt + (s.mem.read x.toNat).toInt ↔
          -2 ^ 39 ≤ s.ac.toInt + (s.mem.read x.toNat).toInt ∧ s.ac.toInt + (s.mem.read x.toNat).toInt < 2 ^ 39))
    ∧ (∃ t, exec (.subM x) s = .next t
      ∧ (t.ac.toInt - (s.ac.toInt - (s.mem.read x.toNat).toInt)) % 2 ^ 40 = 0
      ∧ (t.ac.toInt = s.ac.toInt - (s.mem.read x.toNat).toInt ↔
          -2 ^ 39 ≤ s.ac.toInt - (s.mem.read x.toNat).toInt ∧ s.ac.toInt - (s.mem.read x.toNat).toInt < 2 ^ 39))

/-- 43_muldiv.md, the law of MUL, which the spec marks as derived. The negation of a negative product is `mulNegAdjust` (D6, log 10), MBR is D3 (log 8). -/
def Obligations.MultiplyWritesTheSignedEightyBitProduct : Prop :=
  ∀ (x : Addr) (s : State), (s.ctrl = .leftExecute ∨ s.ctrl = .rightExecute) → x.toNat < 1024 →
    ∃ t, exec (.mulM x) s = .next t
      ∧ ((t.ac.toNat * 2 ^ 40 + t.mq.toNat : Nat) : Int) = s.mq.toInt * (s.mem.read x.toNat).toInt % 2 ^ 80
      ∧ t = { s with ac := t.ac, mq := t.mq, ctrl := if s.ctrl = .leftExecute then .rightFetch else .leftFetch }

/-- 43_muldiv.md R145. That MBR is unchanged too is decision D3 and stands in DivideTruncatesTowardZero. -/
def Obligations.DivideWritesQuotientAndRemainderOrFails : Prop :=
  ∀ (x : Addr) (s : State), (s.ctrl = .leftExecute ∨ s.ctrl = .rightExecute) →
    (1024 ≤ x.toNat → exec (.divM x) s = .fault (.invalidAccess x.toNat))
    ∧ (x.toNat < 1024 → s.mem.read x.toNat = 0 → exec (.divM x) s = .fault .arithmeticException)
    ∧ (x.toNat < 1024 → s.mem.read x.toNat ≠ 0 → ∃ t, exec (.divM x) s = .next t
      ∧ t.mq = BitVec.ofInt 40
          (if decide (s.ac.toInt < 0) != decide ((s.mem.read x.toNat).toInt < 0)
            then -((s.ac.toInt.natAbs / (s.mem.read x.toNat).toInt.natAbs : Nat) : Int)
            else ((s.ac.toInt.natAbs / (s.mem.read x.toNat).toInt.natAbs : Nat) : Int))
      ∧ t.ac = BitVec.ofInt 40
          (if s.ac.toInt < 0
            then -((s.ac.toInt.natAbs % (s.mem.read x.toNat).toInt.natAbs : Nat) : Int)
            else ((s.ac.toInt.natAbs % (s.mem.read x.toNat).toInt.natAbs : Nat) : Int))
      ∧ t.pc = s.pc ∧ t.mar = s.mar ∧ t.ir = s.ir ∧ t.ibr = s.ibr ∧ t.mem = s.mem
      ∧ t.ctrl = if s.ctrl = .leftExecute then .rightFetch else .leftFetch)

/-- 43_muldiv.md, the law of DIV, which the spec marks as derived; MBR is D3 (log 8). -/
def Obligations.DivideTruncatesTowardZero : Prop :=
  ∀ (x : Addr) (s : State), (s.ctrl = .leftExecute ∨ s.ctrl = .rightExecute) → x.toNat < 1024 → s.mem.read x.toNat ≠ 0 →
    exec (.divM x) s = .next
      { s with mq := BitVec.ofInt 40 (s.ac.toInt.tdiv (s.mem.read x.toNat).toInt),
               ac := BitVec.ofInt 40 (s.ac.toInt - (s.mem.read x.toNat).toInt * s.ac.toInt.tdiv (s.mem.read x.toNat).toInt),
               ctrl := if s.ctrl = .leftExecute then .rightFetch else .leftFetch }
    ∧ ∃ t, exec (.divM x) s = .next t
      ∧ t.ac.toInt = s.ac.toInt - (s.mem.read x.toNat).toInt * s.ac.toInt.tdiv (s.mem.read x.toNat).toInt
      ∧ t.ac.toInt.natAbs < (s.mem.read x.toNat).toInt.natAbs
      ∧ (s.ac.toInt < 0 → t.ac.toInt ≤ 0) ∧ (0 ≤ s.ac.toInt → 0 ≤ t.ac.toInt)

/-- 43_muldiv.md, the magnitude product by halves, which the spec marks as derived by algebra. -/
def Obligations.ProductByHalvesIsTheExactProduct : Prop :=
  ∀ a b : Word, (mulByHalves a b).hi.toNat = a.toNat * b.toNat / 2 ^ 40
    ∧ (mulByHalves a b).lo.toNat = a.toNat * b.toNat % 2 ^ 40

/-- 43_muldiv.md, neg80, whose use for negative products is decision D6 (log 10). -/
def Obligations.NegationOfThePairIsExactInBothForms : Prop :=
  ∀ p : Pair80, neg80 p = neg80ByComplement p
    ∧ (neg80 p).hi.toNat * 2 ^ 40 + (neg80 p).lo.toNat = (2 ^ 80 - (p.hi.toNat * 2 ^ 40 + p.lo.toNat)) % 2 ^ 80

/-- 44_jump.md R155, R156. Targets of 1024 and more are in JumpTargetsAreNotValidated. -/
def Obligations.JumpsContinueWithTheChosenHalfOfTheTarget : Prop :=
  ∀ (x : Addr) (s : State), (s.ctrl = .leftExecute ∨ s.ctrl = .rightExecute) → x.toNat < 1024 →
    (∃ t u, exec (.jumpLeft x) s = .next t ∧ t = { s with pc := x, ctrl := .leftFetch } ∧ fetch t = .next u
      ∧ u.mbr = s.mem.read x.toNat ∧ u.ir = BitVec.ofNat 8 ((s.mem.read x.toNat).toNat / 2 ^ 32)
      ∧ u.mar = BitVec.ofNat 12 ((s.mem.read x.toNat).toNat / 2 ^ 20) ∧ u.ctrl = .leftExecute)
    ∧ (∃ t u, exec (.jumpRight x) s = .next t ∧ t = { s with pc := x, ctrl := .rightFetchRAM } ∧ fetch t = .next u
      ∧ u.mbr = s.mem.read x.toNat ∧ u.ir = BitVec.ofNat 8 ((s.mem.read x.toNat).toNat / 2 ^ 12)
      ∧ u.mar = BitVec.ofNat 12 (s.mem.read x.toNat).toNat ∧ u.ibr = s.ibr ∧ u.pc.toNat = x.toNat + 1
      ∧ u.ctrl = .rightExecute)

/-- 44_jump.md, opcodes 15 and 16. The branch not taken is the spec's decision D1 (log 6), the unchecked target D2 (log 7). -/
def Obligations.ConditionalJumpsTestTheSignOfAc : Prop :=
  ∀ (x : Addr) (s : State), (s.ctrl = .leftExecute ∨ s.ctrl = .rightExecute) →
    exec (.jumpPlusLeft x) s = .next
      (if s.ac.toNat < 2 ^ 39 then { s with pc := x, ctrl := .leftFetch }
        else { s with ctrl := if s.ctrl = .leftExecute then .rightFetch else .leftFetch })
    ∧ exec (.jumpPlusRight x) s = .next
      (if s.ac.toNat < 2 ^ 39 then { s with pc := x, ctrl := .rightFetchRAM }
        else { s with ctrl := if s.ctrl = .leftExecute then .rightFetch else .leftFetch })

/-- 44_jump.md, target validity: the spec's decision D2 (log 7). -/
def Obligations.JumpTargetsAreNotValidated : Prop :=
  ∀ (x : Addr) (s : State), (s.ctrl = .leftExecute ∨ s.ctrl = .rightExecute) → 1024 ≤ x.toNat →
    ∀ i ∈ [Instr.jumpLeft x, Instr.jumpPlusLeft x, Instr.jumpRight x, Instr.jumpPlusRight x],
      (i = .jumpPlusLeft x ∨ i = .jumpPlusRight x → 0 ≤ s.ac.toInt) → ∃ t,
      exec i s = .next t
      ∧ t = { s with pc := x, ctrl := if i = .jumpLeft x ∨ i = .jumpPlusLeft x then .leftFetch else .rightFetchRAM }
      ∧ fetch t = .fault (.invalidFetch (some x))

/-- 45_store.md R165. -/
def Obligations.StoreReplacesTheWholeWord : Prop :=
  ∀ (x : Addr) (s : State), (s.ctrl = .leftExecute ∨ s.ctrl = .rightExecute) →
    (x.toNat < 1024 → ∃ t, exec (.storM x) s = .next t
      ∧ t = { s with mbr := s.ac, mem := t.mem, ctrl := if s.ctrl = .leftExecute then .rightFetch else .leftFetch }
      ∧ t.mem.read x.toNat = s.ac ∧ ∀ a, a ≠ x.toNat → t.mem.read a = s.mem.read a)
    ∧ (1024 ≤ x.toNat → exec (.storM x) s = .fault (.invalidAccess x.toNat))

/-- 45_store.md, opcodes 18 and 19. The source bits of opcode 18 are D4 (log 9), MBR unchanged is D3 (log 8). -/
def Obligations.PartialStoresReplaceTwelveBitsAtTheirPosition : Prop :=
  ∀ (x : Addr) (s : State), (s.ctrl = .leftExecute ∨ s.ctrl = .rightExecute) → x.toNat < 1024 →
    (∃ t, exec (.storLeftAddr x) s = .next t
      ∧ t = { s with mem := t.mem, ctrl := if s.ctrl = .leftExecute then .rightFetch else .leftFetch }
      ∧ (∀ k, (t.mem.read x.toNat).getLsbD k =
          if 20 ≤ k ∧ k < 32 then s.ac.getLsbD k else (s.mem.read x.toNat).getLsbD k)
      ∧ ∀ a, a ≠ x.toNat → t.mem.read a = s.mem.read a)
    ∧ (∃ t, exec (.storRightAddr x) s = .next t
      ∧ t = { s with mem := t.mem, ctrl := if s.ctrl = .leftExecute then .rightFetch else .leftFetch }
      ∧ (∀ k, (t.mem.read x.toNat).getLsbD k =
          if k < 12 then s.ac.getLsbD k else (s.mem.read x.toNat).getLsbD k)
      ∧ ∀ a, a ≠ x.toNat → t.mem.read a = s.mem.read a)

/-- 45_store.md R168. -/
def Obligations.SpliceReplacesExactlyTheAddressSubfield : Prop :=
  ∀ (w : Word) (f : BitVec 12) (lsb : Nat), lsb = 0 ∨ lsb = 20 →
    (splice w lsb f).toNat = w.toNat - w.toNat / 2 ^ lsb % 2 ^ 12 * 2 ^ lsb + f.toNat * 2 ^ lsb
    ∧ (splice w lsb f).toNat / 2 ^ lsb % 2 ^ 12 = f.toNat
    ∧ ∀ k, (k < lsb ∨ lsb + 12 ≤ k) → (splice w lsb f).getLsbD k = w.getLsbD k

/-- 20_memory.md: one agent, one memory, a read returns the latest write. -/
def Obligations.LoadAfterStoreReadsTheLatestWrite : Prop :=
  ∀ (x y : Addr) (s : State), (s.ctrl = .leftExecute ∨ s.ctrl = .rightExecute) → x.toNat < 1024 → y.toNat < 1024 →
    ∃ t, exec (.storM x) s = .next t ∧ ∀ v : State, v.mem = t.mem →
      (v.ctrl = .leftExecute ∨ v.ctrl = .rightExecute) →
      ∃ u, exec (.loadM y) v = .next u ∧ u.ac = if y = x then s.ac else s.mem.read y.toNat

/-- 46_shift.md R175, R176. Address fields of 1024 and more are in UnusedAddressFieldHasNoEffect. -/
def Obligations.ShiftsMoveAcByOneBit : Prop :=
  ∀ (x : Addr) (s : State), (s.ctrl = .leftExecute ∨ s.ctrl = .rightExecute) → x.toNat < 1024 →
    exec (.lsh x) s = .next
      { s with ac := BitVec.ofNat 40 (s.ac.toNat * 2 % 2 ^ 40), ctrl := if s.ctrl = .leftExecute then .rightFetch else .leftFetch }
    ∧ exec (.rsh x) s = .next
      { s with ac := BitVec.ofNat 40 (s.ac.toNat / 2), ctrl := if s.ctrl = .leftExecute then .rightFetch else .leftFetch }

/-- 30_encoding.md, unused address fields; the spec's decision D19 (log 15). -/
def Obligations.UnusedAddressFieldHasNoEffect : Prop :=
  ∀ (x : Addr) (s : State), (s.ctrl = .leftExecute ∨ s.ctrl = .rightExecute) →
    (∃ t, exec (.lsh x) s = .next t ∧ exec (.lsh 0) s = .next t)
    ∧ (∃ t, exec (.rsh x) s = .next t ∧ exec (.rsh 0) s = .next t)
    ∧ (∃ t, exec (.loadMq x) s = .next t ∧ exec (.loadMq 0) s = .next t)

/-- 60_exceptions.md, invalidAccess. The exclusions of the jumps and of opcodes 10, 20, 21 are D2 and D19 (logs 7, 15). -/
def Obligations.InvalidAccessExactlyForMemoryReferencesBeyondMemory : Prop :=
  ∀ (i : Instr) (s : State) (n : Nat), exec i s = .fault (.invalidAccess n) ↔
    (s.ctrl = .leftExecute ∨ s.ctrl = .rightExecute) ∧ i.opcode.toNat ∈ [1, 2, 3, 5, 6, 7, 8, 9, 11, 12, 18, 19, 33]
      ∧ n = i.operand.toNat ∧ 1024 ≤ n

/-- 40_fetch_execute.md R105, R106. -/
def Obligations.CallsOutOfTurnFailAndChangeNothing : Prop :=
  ∀ s : State,
    ((s.ctrl = .leftExecute ∨ s.ctrl = .rightExecute) → perform .fetch s = (s, .failed (.invalidFetch none)))
    ∧ ((s.ctrl = .leftFetch ∨ s.ctrl = .rightFetch ∨ s.ctrl = .rightFetchRAM) →
        perform .execute s = (s, .failed .invalidExecution))

/-- 40_fetch_execute.md R107; 90_conflicts.md C3 for the address. In right_execute with PC = 0, which only a host can make, the address is a free value (log 16) and nothing is said of it. -/
def Obligations.UndefinedOpcodeFailsAndChangesNothing : Prop :=
  ∀ s : State, (s.ctrl = .leftExecute ∨ s.ctrl = .rightExecute) →
    s.ir.toNat ∉ [1, 2, 3, 5, 6, 7, 8, 9, 10, 11, 12, 13, 14, 15, 16, 18, 19, 20, 21, 33] →
    ∃ a, perform .execute s = (s, .failed (.invalidInstruction a))
      ∧ perform .fetch s = (s, .failed (.invalidFetch none))
      ∧ (s.ctrl = .leftExecute → a = s.pc)
      ∧ (s.ctrl = .rightExecute → 1 ≤ s.pc.toNat → a.toNat = s.pc.toNat - 1)

/-- 60_exceptions.md, priority: the order of the third and fourth check is the spec's inference D18 (log 17). -/
def Obligations.ExecuteChecksInOrderAndElseCompletes : Prop :=
  ∀ s : State,
    (¬(s.ctrl = .leftExecute ∨ s.ctrl = .rightExecute) → execute s = .fault .invalidExecution)
    ∧ ((s.ctrl = .leftExecute ∨ s.ctrl = .rightExecute) →
      (s.ir.toNat ∉ [1, 2, 3, 5, 6, 7, 8, 9, 10, 11, 12, 13, 14, 15, 16, 18, 19, 20, 21, 33] →
        ∃ a, execute s = .fault (.invalidInstruction a))
      ∧ (s.ir.toNat ∈ [1, 2, 3, 5, 6, 7, 8, 9, 11, 12, 18, 19, 33] → 1024 ≤ s.mar.toNat →
        execute s = .fault (.invalidAccess s.mar.toNat))
      ∧ (s.ir.toNat = 12 → s.mar.toNat < 1024 → s.mem.read s.mar.toNat = 0 →
        execute s = .fault .arithmeticException)
      ∧ (s.ir.toNat ∈ [1, 2, 3, 5, 6, 7, 8, 9, 10, 11, 12, 13, 14, 15, 16, 18, 19, 20, 21, 33] →
        (s.ir.toNat ∈ [1, 2, 3, 5, 6, 7, 8, 9, 11, 12, 18, 19, 33] → s.mar.toNat < 1024) →
        (s.ir.toNat = 12 → s.mem.read s.mar.toNat ≠ 0) → ∃ t, execute s = .next t))

/-- 40_fetch_execute.md R102. -/
def Obligations.LeftFetchLoadsTheWordAndBuffersItsRightHalf : Prop :=
  ∀ s : State, s.ctrl = .leftFetch →
    (s.pc.toNat < 1024 → fetch s = .next
      { s with mbr := s.mem.read s.pc.toNat, ir := BitVec.ofNat 8 ((s.mem.read s.pc.toNat).toNat / 2 ^ 32),
               mar := BitVec.ofNat 12 ((s.mem.read s.pc.toNat).toNat / 2 ^ 20),
               ibr := BitVec.ofNat 20 (s.mem.read s.pc.toNat).toNat, ctrl := .leftExecute })
    ∧ (1024 ≤ s.pc.toNat → fetch s = .fault (.invalidFetch (some s.pc)))

/-- 40_fetch_execute.md, right_fetch. The failure at PC = 4095 is the spec's decision D11 (log 14). -/
def Obligations.RightFetchTakesTheBufferedInstruction : Prop :=
  ∀ s : State, s.ctrl = .rightFetch →
    (s.pc.toNat < 4095 → fetch s = .next
      { s with ir := BitVec.ofNat 8 (s.ibr.toNat / 2 ^ 12), mar := BitVec.ofNat 12 s.ibr.toNat,
               pc := BitVec.ofNat 12 (s.pc.toNat + 1), ctrl := .rightExecute })
    ∧ (s.pc.toNat = 4095 → fetch s = .fault (.invalidData 4095))

/-- 40_fetch_execute.md R104. -/
def Obligations.RightFetchFromMemoryKeepsIbr : Prop :=
  ∀ s : State, s.ctrl = .rightFetchRAM →
    (s.pc.toNat < 1024 → fetch s = .next
      { s with mbr := s.mem.read s.pc.toNat, ir := BitVec.ofNat 8 ((s.mem.read s.pc.toNat).toNat / 2 ^ 12),
               mar := BitVec.ofNat 12 (s.mem.read s.pc.toNat).toNat, pc := BitVec.ofNat 12 (s.pc.toNat + 1),
               ctrl := .rightExecute })
    ∧ (1024 ≤ s.pc.toNat → fetch s = .fault (.invalidFetch (some s.pc)))

/-- 10_state.md R40. -/
def Obligations.PowerOnStateIsAllZero : Prop :=
  State.reset.ac = 0 ∧ State.reset.mq = 0 ∧ State.reset.mbr = 0 ∧ State.reset.pc = 0 ∧ State.reset.mar = 0
    ∧ State.reset.ir = 0 ∧ State.reset.ibr = 0 ∧ State.reset.ctrl = .leftFetch
    ∧ (∀ a, a < 1024 → State.reset.mem.read a = 0)
    ∧ ∃ t, fetch State.reset = .next t ∧ t.ctrl = .leftExecute ∧ t.pc = 0 ∧ t.mbr = State.reset.mem.read 0

/-- 70_reset_and_hazards.md R210. -/
def Obligations.ResetCallZeroesOnlyPcAndCtrl : Prop :=
  ∀ s : State, perform .reset s = ({ s with pc := 0, ctrl := .leftFetch }, .done)
    ∧ ∃ t, fetch { s with pc := 0, ctrl := .leftFetch } = .next t ∧ t.mbr = s.mem.read 0
      ∧ t.ir = BitVec.ofNat 8 ((s.mem.read 0).toNat / 2 ^ 32) ∧ t.mar = BitVec.ofNat 12 ((s.mem.read 0).toNat / 2 ^ 20)

/-- 70_reset_and_hazards.md R212. -/
def Obligations.ZeroAllRamKeepsRegisters : Prop :=
  ∀ s : State, ∃ t, perform .zeroAllRAM s = (t, .done) ∧ t = { s with mem := t.mem } ∧ ∀ a, t.mem.read a = 0

/-- 70_reset_and_hazards.md; that CTRL is reset too is the spec's decision D10 (log 13). -/
def Obligations.ZeroAllRegistersKeepsMemory : Prop :=
  ∀ s : State, perform .zeroAllRegisters s = ({ State.reset with mem := s.mem }, .done)

/-- 40_fetch_execute.md R101. -/
def Obligations.FetchAndExecuteAlternateStrictly : Prop :=
  State.reset.ctrl = .leftFetch
    ∧ (∀ s, fetch s = .fault (.invalidFetch none) ↔ ¬(s.ctrl = .leftFetch ∨ s.ctrl = .rightFetch ∨ s.ctrl = .rightFetchRAM))
    ∧ (∀ s, execute s = .fault .invalidExecution ↔ ¬(s.ctrl = .leftExecute ∨ s.ctrl = .rightExecute))
    ∧ (∀ s t, fetch s = .next t → (s.ctrl = .leftFetch ∨ s.ctrl = .rightFetch ∨ s.ctrl = .rightFetchRAM)
      ∧ (t.ctrl = .leftExecute ∨ t.ctrl = .rightExecute))
    ∧ (∀ s t, execute s = .next t → (s.ctrl = .leftExecute ∨ s.ctrl = .rightExecute)
      ∧ (t.ctrl = .leftFetch ∨ t.ctrl = .rightFetch ∨ t.ctrl = .rightFetchRAM))

/-- 40_fetch_execute.md; that a step is fetch() then execute() is the model's choice, which the spec allows (log 2). -/
def Obligations.StepRunsTheDecodedInstruction : Prop :=
  ∀ (s : State) (i : Instr),
    (s.ctrl = .leftFetch → s.pc.toNat < 1024 →
      decode (BitVec.ofNat 20 ((s.mem.read s.pc.toNat).toNat / 2 ^ 20)) = .ok i →
      step s = exec i
        { s with mbr := s.mem.read s.pc.toNat, ir := i.opcode, mar := i.operand,
                 ibr := BitVec.ofNat 20 (s.mem.read s.pc.toNat).toNat, ctrl := .leftExecute })
    ∧ (s.ctrl = .rightFetch → s.pc.toNat < 4095 → decode s.ibr = .ok i →
      step s = exec i { s with ir := i.opcode, mar := i.operand, pc := s.pc + 1, ctrl := .rightExecute })
    ∧ (s.ctrl = .rightFetchRAM → s.pc.toNat < 1024 →
      decode (BitVec.ofNat 20 (s.mem.read s.pc.toNat).toNat) = .ok i →
      step s = exec i
        { s with mbr := s.mem.read s.pc.toNat, ir := i.opcode, mar := i.operand, pc := s.pc + 1,
                 ctrl := .rightExecute })
    ∧ ((s.ctrl = .leftExecute ∨ s.ctrl = .rightExecute) →
      decode (BitVec.ofNat 20 (s.ir.toNat * 4096 + s.mar.toNat)) = .ok i → step s = exec i s)

/-- 40_fetch_execute.md: the lookup is on IR, the operand is MAR (log 4). -/
def Obligations.ExecuteRunsTheInstructionHeldInIrAndMar : Prop :=
  ∀ (i : Instr) (s : State), (s.ctrl = .leftExecute ∨ s.ctrl = .rightExecute) → s.ir = i.opcode → s.mar = i.operand → execute s = exec i s

/-- 10_state.md, who writes what (the spec marks the table as derived); MBR under 11, 12, 18, 19 is D3 (log 8). -/
def Obligations.InstructionsWriteOnlyTheirOwnRegisters : Prop :=
  ∀ (i : Instr) (s t : State), exec i s = .next t →
    t.mar = s.mar ∧ t.ir = s.ir ∧ t.ibr = s.ibr
    ∧ (t.pc = s.pc ∨ i.opcode.toNat ∈ [13, 14, 15, 16] ∧ t.pc = i.operand)
    ∧ (t.ac = s.ac ∨ i.opcode.toNat ∈ [1, 2, 3, 5, 6, 7, 8, 10, 11, 12, 20, 21])
    ∧ (t.mq = s.mq ∨ i.opcode.toNat ∈ [9, 11, 12])
    ∧ (t.mbr = s.mbr ∨ i.opcode.toNat ∈ [1, 2, 3, 5, 6, 7, 8, 9, 33])
    ∧ (t.mem = s.mem ∨ i.opcode.toNat ∈ [18, 19, 33])

/-- 20_memory.md R55. -/
def Obligations.OnlyTheThreeStoresWriteMemory : Prop :=
  ∀ (i : Instr) (s t : State), exec i s = .next t → ∀ a,
    (¬(i = .storM i.operand ∧ a = i.operand.toNat) ∧ t.mem.read a = s.mem.read a)
    ∨ (i = .storM i.operand ∧ a = i.operand.toNat ∧ t.mem.read a = s.ac)
    ∨ (i = .storLeftAddr i.operand ∧ a = i.operand.toNat
      ∧ ∀ k, (k < 20 ∨ 32 ≤ k) → (t.mem.read a).getLsbD k = (s.mem.read a).getLsbD k)
    ∨ (i = .storRightAddr i.operand ∧ a = i.operand.toNat
      ∧ ∀ k, 12 ≤ k → (t.mem.read a).getLsbD k = (s.mem.read a).getLsbD k)

/-- 70_reset_and_hazards.md, the IBR hazard, which the spec marks as derived from the fetch and store rules. -/
def Obligations.StoreIntoOwnWordIsNotSeenByItsRightInstruction : Prop :=
  ∀ s : State, s.ctrl = .leftFetch → s.pc.toNat < 1024 →
    ∀ i ∈ [Instr.storM s.pc, Instr.storLeftAddr s.pc, Instr.storRightAddr s.pc],
      decode (BitVec.ofNat 20 ((s.mem.read s.pc.toNat).toNat / 2 ^ 20)) = .ok i →
      ∃ t u, step s = .next t ∧ fetch t = .next u
        ∧ (i = .storM s.pc → t.mem.read s.pc.toNat = s.ac)
        ∧ (i = .storRightAddr s.pc → ∀ k, k < 12 → (t.mem.read s.pc.toNat).getLsbD k = s.ac.getLsbD k)
        ∧ u.ir = BitVec.ofNat 8 ((s.mem.read s.pc.toNat).toNat / 2 ^ 12)
        ∧ u.mar = BitVec.ofNat 12 (s.mem.read s.pc.toNat).toNat
        ∧ u.pc.toNat = s.pc.toNat + 1 ∧ u.ctrl = .rightExecute ∧ u.mem = t.mem
        ∧ ∀ v : State, v.mem = t.mem → v.pc = s.pc → (v.ctrl = .leftFetch ∨ v.ctrl = .rightFetchRAM) →
          ∃ w, fetch v = .next w ∧ w.mbr = t.mem.read s.pc.toNat

/-- 40_fetch_execute.md, the instruction stream, which the spec marks as derived. -/
def Obligations.AWordIsTwoInstructionsLeftThenRight : Prop :=
  ∀ (s t : State) (i j : Instr), s.ctrl = .leftFetch → s.pc.toNat < 1024 →
    decode (BitVec.ofNat 20 ((s.mem.read s.pc.toNat).toNat / 2 ^ 20)) = .ok i → i.opcode.toNat ∉ [13, 14, 15, 16] →
    decode (BitVec.ofNat 20 (s.mem.read s.pc.toNat).toNat) = .ok j → j.opcode.toNat ∉ [13, 14, 15, 16] →
    step s = .next t →
      t.ctrl = .rightFetch ∧ t.pc = s.pc
      ∧ step t = exec j { t with ir := j.opcode, mar := j.operand, pc := s.pc + 1, ctrl := .rightExecute }
      ∧ ∀ u, step t = .next u → u.ctrl = .leftFetch ∧ u.pc.toNat = s.pc.toNat + 1
        ∧ (s.pc.toNat = 1023 → step u = .fault (.invalidFetch (some 1024)))

/-- 40_fetch_execute.md R117. -/
def Obligations.WorkedSequenceCopiesWordFiveToWordSix : Prop :=
  ∀ s : State, s.ctrl = .leftFetch → s.pc = 0 → s.mem.read 0 = 0x0100521006 →
    ∃ s1 s2 s3 s4, fetch s = .next s1 ∧ s1.ctrl = .leftExecute ∧ s1.ir = 1 ∧ s1.mar = 5
      ∧ execute s1 = .next s2 ∧ s2.ac = s.mem.read 5 ∧ s2.ctrl = .rightFetch
      ∧ fetch s2 = .next s3 ∧ s3.ctrl = .rightExecute ∧ s3.ir = 33 ∧ s3.mar = 6 ∧ s3.pc = 1
      ∧ execute s3 = .next s4 ∧ s4.mem.read 6 = s.mem.read 5 ∧ s4.mem.read 6 = s4.ac ∧ s4.ctrl = .leftFetch

/-- 70_reset_and_hazards.md, the end of a run: the spec's decision D9 (log 28). -/
def Obligations.IdlePointStaysIdleForEver : Prop :=
  ∀ (s : State) (h : Addr), s.idleAt h = true →
    ∃ t, step s = .next t ∧ t.idleAt h = true
      ∧ t = { s with mbr := t.mbr, mar := t.mar, ir := t.ir, ibr := t.ibr }
      ∧ step t = .next t

/-- 10_state.md, the PC in each control state. The canonical form of memory is the model's (log 1). -/
def Obligations.StepKeepsMemoryCanonicalAndPcSequenced : Prop :=
  ∀ s t : State, s.inv = true → step s = .next t → t.inv = true

/-- 10_state.md, reset values. The canonical form of memory is the model's (log 1). -/
def Obligations.ResetSatisfiesTheInvariant : Prop :=
  State.reset.inv = true

/-- 80_host_interface.md: setCPU alone can put PC and CTRL out of sequence. The canonical form of memory is the model's choice (log 1). That
zeroAllRegisters() keeps PC in sequence rests on the spec's decision D10, by which it resets CTRL too (log 13). -/
def Obligations.EveryRunWithoutRegisterPatchesKeepsTheInvariant : Prop :=
  ∀ (rs : List Request) (s : State), (∀ r ∈ rs, r.patchesRegister = false) → s.inv = true →
    (performAll rs s).inv = true

/-- The canonical form of memory is the model's (log 1). -/
def Obligations.EveryRequestKeepsMemoryCanonical : Prop :=
  ∀ (r : Request) (s : State), s.mem.wf = true → (perform r s).1.mem.wf = true

/-- 60_exceptions.md, the kinds the block itself raises (the spec marks the rule as derived). -/
def Obligations.EngineFaultsAreTheFiveKinds : Prop :=
  ∀ (s : State) (k : Fault), s.inv = true → (fetch s = .fault k ∨ execute s = .fault k ∨ step s = .fault k) →
    k.fromEngine = true

/-- Every row of the opcode table is modelled. -/
def Obligations.NoStepIsEverRefused : Prop :=
  ∀ (s : State) (k : Refusal), step s ≠ .refused k

/-- 10_state.md, wrap-around (the spec marks the rule as derived). -/
def Obligations.ProgramCounterNeverWraps : Prop :=
  ∀ s t : State, s.inv = true → fetch s = .next t →
    (s.ctrl = .leftFetch → t.pc = s.pc)
    ∧ (s.ctrl ≠ .leftFetch → t.pc.toNat = s.pc.toNat + 1 ∧ t.pc.toNat ≤ 1024)

/-- 30_encoding.md, formats and opcode map. -/
def Obligations.DecodingAnEncodedInstructionGivesItBack : Prop :=
  ∀ i : Instr, i.wellFormed = true →
    decode (encode i) = .ok i ∧ (encode i).toNat = i.opcode.toNat * 4096 + i.operand.toNat

/-- 30_encoding.md, formats and opcode map. -/
def Obligations.EveryFieldThatDecodesIsItsOwnEncoding : Prop :=
  ∀ (f : Field) (i : Instr), decode f = .ok i → encode i = f

/-- 30_encoding.md R75, with the set of R74. -/
def Obligations.ExactlyTheTwentyOpcodesDecodeWithEveryAddress : Prop :=
  ∀ f : Field, (∃ i, decode f = .ok i) ↔
    f.toNat / 4096 ∈ [1, 2, 3, 5, 6, 7, 8, 9, 10, 11, 12, 13, 14, 15, 16, 18, 19, 20, 21, 33]

/-- 30_encoding.md, worked encodings; 95_test_vectors.md E1 to E7, E14. -/
def Obligations.WorkedEncodingsDecode : Prop :=
  decode 0x01005 = .ok (.loadM 5) ∧ decode 0x21006 = .ok (.storM 6) ∧ decode 0x0F000 = .ok (.jumpPlusLeft 0)
    ∧ decode 0x14000 = .ok (.lsh 0) ∧ decode 0x12001 = .ok (.storLeftAddr 1) ∧ decode 0x093FF = .ok (.loadMqM 0x3FF)
    ∧ decode 0x10000 = .ok (.jumpPlusRight 0) ∧ decode 0x02010 = .ok (.loadNegM 0x10)
    ∧ decode 0x00000 = .error (.undefinedOpcode 0) ∧ decode 0x04123 = .error (.undefinedOpcode 4)

/-- 60_exceptions.md R181. -/
def Obligations.AFailedRequestChangesNothing : Prop :=
  ∀ (r : Request) (s : State) (k : Fault), (perform r s).2 = .failed k → (perform r s).1 = s

/-- 80_host_interface.md, setCPU of ctrl. That a name in other letters is refused, and the register's spelling `ctrl`, are the model's choice (log 25). -/
def Obligations.SetCtrlTakesExactlyTheFiveNames : Prop :=
  ∀ (s : State) (attr : Text),
    (∀ c : Ctrl, perform (.setCPU "ctrl".toList attr (.text c.name)) s = ({ s with ctrl := c }, .done))
    ∧ ∀ v : HostValue, (∀ c : Ctrl, v ≠ .text c.name) →
      perform (.setCPU "ctrl".toList attr v) s = (s, .failed .invalidCPUState)

/-- 80_host_interface.md, the round-trip property, for every view of memory. The type of values, and the free text forms of an opcode and of an address, are the model's choice (log 20). -/
def Obligations.MemoryAttributeWritesReadBack : Prop :=
  ∀ (s : State) (a : Nat) (name : Text) (side : Side) (part : Part) (form : Form) (n : Nat) (v r : HostValue),
    a < 1024 → findAttr name = some (.view side part form) → n < 2 ^ part.width →
    (part = .opcode → n ∈ [1, 2, 3, 5, 6, 7, 8, 9, 10, 11, 12, 13, 14, 15, 16, 18, 19, 20, 21, 33]) →
    (form = .raw ∧ v = .num n ∧ r = v
      ∨ form = .hex ∧ v = .hex n ∧ r = v
      ∨ form = .text ∧ part = .instruction ∧ (∃ u, v = .text u ∧ encodeText u = .ok (BitVec.ofNat 20 n))
        ∧ r = .text (decodeText (BitVec.ofNat 20 n))
      ∨ form = .text ∧ part = .opcode ∧ (∃ u, v = .text u ∧ partOfText true u = some n) ∧ r = .text (partText true n)
      ∨ form = .text ∧ part = .addr ∧ (∃ u, v = .text u ∧ partOfText false u = some n) ∧ r = .text (partText false n)) →
    ∃ t, perform (.setRAM a name v) s = (t, .done) ∧ perform (.getRAM a name) t = (t, .value r)
      ∧ perform (.setRAM a name r) s = (t, .done)
      ∧ (∀ k, (k < side.base + part.lsb ∨ side.base + part.lsb + part.width ≤ k) →
          (t.mem.read a).getLsbD k = (s.mem.read a).getLsbD k)
      ∧ (∀ b, b ≠ a → t.mem.read b = s.mem.read b) ∧ t = { s with mem := t.mem }

/-- 80_host_interface.md R244. The premise on s is the model's canonical form (log 1), kept by every request (EveryRequestKeepsMemoryCanonical). -/
def Obligations.DumpThenLoadReproducesMemory : Prop :=
  ∀ s t : State, s.mem.wf = true → t.mem = (zeroAllRAM t).mem →
    perform (.loadRAM (dumpRAM s.mem)) t = ({ t with mem := s.mem }, .done)

/-- 30_encoding.md, the text codec; the text's digits are D14 (log 21). -/
def Obligations.AssembledTextOfAnInstructionReadsBack : Prop :=
  ∀ (f : Field) (i : Instr), decode f = .ok i → i.assemblable = true → encodeText (decodeText f) = .ok f

/-- 30_encoding.md, encode (the spec marks the mutual exclusion as derived by inspection). -/
def Obligations.AtMostOneTemplateMatches : Prop :=
  ∀ (t : Text) (p q : Template) (m n : Nat), p ∈ templates → q ∈ templates →
    p.matchWhole t = some m → q.matchWhole t = some n → p = q
end

