-- ==== Sys2Proof/Laws/Alu.lean ====
section
/-! SUPPORT. What the word arithmetic does on numbers, one lemma for each operation. -/

namespace Sys2Proof.Machine

theorem word_lt (w : Word) : w.toNat < 1099511627776 := w.isLt

@[simp] theorem wrap40_toNat (n : Nat) : (wrap40 n).toNat = n % 1099511627776 := by
  simp [wrap40]

theorem wrap40_of_toNat (w : Word) : wrap40 w.toNat = w := by
  simp [wrap40]

theorem isNegative_iff (w : Word) : isNegative w = true ↔ 549755813888 ≤ w.toNat :=
  decide_eq_true_iff

theorem isNegative_false_iff (w : Word) : isNegative w = false ↔ w.toNat < 549755813888 :=
  decide_eq_false_iff_not.trans Nat.not_le

/-- The two's-complement reading is the library's. -/
theorem sval_eq_toInt (w : Word) : sval w = w.toInt := by
  have h := word_lt w
  rw [BitVec.toInt_eq_toNat_cond]
  unfold sval isNegative Config.signWeight Config.wordMod
  simp only [decide_eq_true_eq]
  split <;> split <;> omega

theorem neg40_toNat (w : Word) : (neg40 w).toNat = (1099511627776 - w.toNat) % 1099511627776 := by
  simp [neg40, Config.wordMod]

theorem abs40_toNat (w : Word) :
    (abs40 w).toNat = if w.toNat < 549755813888 then w.toNat else 1099511627776 - w.toNat := by
  have h := word_lt w
  by_cases hn : w.toNat < 549755813888
  · simp [abs40, (isNegative_false_iff w).2 hn, hn]
  · rw [abs40, (isNegative_iff w).2 (by omega)]
    simp only [if_true, hn, if_false, wrap40_toNat, Config.wordMod]
    omega

/-- A magnitude is at most 2^39 (00_scope.md R13). -/
theorem abs40_le (w : Word) : (abs40 w).toNat ≤ 549755813888 := by
  have h := word_lt w
  rw [abs40_toNat]
  split <;> omega

/-- A magnitude is zero for the zero word only. -/
theorem abs40_eq_zero_iff (w : Word) : (abs40 w).toNat = 0 ↔ w = 0 := by
  have h := word_lt w
  rw [abs40_toNat]
  constructor
  · intro h0
    apply BitVec.eq_of_toNat_eq
    split at h0 <;> simp <;> omega
  · rintro rfl
    simp

theorem add40_toNat (a b : Word) : (add40 a b).toNat = (a.toNat + b.toNat) % 1099511627776 := by
  simp [add40]

theorem sub40_toNat (a b : Word) : (sub40 a b).toNat = (a.toNat + 1099511627776 - b.toNat) % 1099511627776 := by
  simp [sub40, Config.wordMod]

theorem shiftLeft40_toNat (a : Word) : (shiftLeft40 a).toNat = a.toNat * 2 % 1099511627776 := by
  simp [shiftLeft40]

theorem shiftRight40_toNat (a : Word) : (shiftRight40 a).toNat = a.toNat / 2 := by
  have h := word_lt a
  simp only [shiftRight40, wrap40_toNat]
  omega

theorem selectBits_toNat (w : Word) (lsb width : Nat) :
    (selectBits w lsb width).toNat = w.toNat / 2 ^ lsb % 2 ^ width := by
  simp [selectBits, Nat.shiftRight_eq_div_pow]

theorem neg80_hi_toNat (p : Pair80) :
    (neg80 p).hi.toNat = (1099511627776 - p.hi.toNat - (if p.lo = 0 then 0 else 1)) % 1099511627776 := by
  simp [neg80, Config.wordMod]

theorem neg80_lo_toNat (p : Pair80) : (neg80 p).lo.toNat = (1099511627776 - p.lo.toNat) % 1099511627776 := by
  simp [neg80, Config.wordMod]

theorem split80_hi_toNat (p : Nat) (h : p < 1099511627776 * 1099511627776) :
    (split80 p).hi.toNat = p / 1099511627776 := by
  simp only [split80, wrap40_toNat, Config.wordMod]
  exact Nat.mod_eq_of_lt (Nat.div_lt_of_lt_mul h)

theorem split80_lo_toNat (p : Nat) : (split80 p).lo.toNat = p % 1099511627776 := by
  simp [split80]

theorem leftField_toNat (w : Word) : (leftField w).toNat = w.toNat / 1048576 := by
  have h := word_lt w
  simp only [leftField, selectBits_toNat]
  omega

theorem rightField_toNat (w : Word) : (rightField w).toNat = w.toNat % 1048576 := by
  simp only [rightField, selectBits_toNat]
  omega

theorem packWord_toNat (l r : Field) : (packWord l r).toNat = l.toNat * 1048576 + r.toNat := by
  have hr : r.toNat < 1048576 := r.isLt
  simp only [packWord, BitVec.toNat_append]
  rw [← Nat.shiftLeft_add_eq_or_of_lt hr, Nat.shiftLeft_eq]

/-- The two halves of a word are its two instruction fields. -/
theorem packWord_fields (w : Word) : packWord (leftField w) (rightField w) = w := by
  apply BitVec.eq_of_toNat_eq
  rw [packWord_toNat, leftField_toNat, rightField_toNat]
  omega

end Sys2Proof.Machine
end

