-- ==== Sys2Proof/Laws/Memory.lean ====
section
/-! SUPPORT. The laws of the memory primitives (20_memory.md R51): a read after a write, every write keeps the canonical
form, and canonical memories that read alike are equal. -/

namespace Sys2Proof.Machine

theorem readCells_removeCell_same (a : Nat) (l : List Cell) : readCells (removeCell a l) a = unlistedWord := by
  induction l with
  | nil => rfl
  | cons c rest ih =>
    obtain ⟨k, v⟩ := c
    by_cases h : k = a <;> simp [removeCell, readCells, h, ih]

theorem readCells_removeCell_other {a b : Nat} (h : b ≠ a) (l : List Cell) :
    readCells (removeCell a l) b = readCells l b := by
  induction l with
  | nil => rfl
  | cons c rest ih =>
    obtain ⟨k, v⟩ := c
    by_cases hk : k = a
    · subst hk
      simp [removeCell, readCells, ih, Ne.symm h]
    · simp [removeCell, readCells, hk, ih]

theorem readCells_insertCell_other {a b : Nat} (h : b ≠ a) (v : Word) (l : List Cell) :
    readCells (insertCell a v l) b = readCells l b := by
  induction l with
  | nil => simp [insertCell, readCells, Ne.symm h]
  | cons c rest ih =>
    obtain ⟨k, w⟩ := c
    by_cases hk : a < k
    · simp [insertCell, readCells, hk, Ne.symm h]
    · simp [insertCell, readCells, hk, ih]

theorem readCells_insertCell_same (a : Nat) (v : Word) (l : List Cell) (h : ∀ c ∈ l, c.1 ≠ a) :
    readCells (insertCell a v l) a = v := by
  induction l with
  | nil => simp [insertCell, readCells]
  | cons c rest ih =>
    obtain ⟨k, w⟩ := c
    have hk : k ≠ a := h (k, w) (by simp)
    have hr : ∀ c ∈ rest, c.1 ≠ a := fun c hc => h c (by simp [hc])
    by_cases hlt : a < k <;> simp [insertCell, readCells, hlt, hk, ih hr]

theorem removeCell_no_key (a : Nat) (l : List Cell) : ∀ c ∈ removeCell a l, c.1 ≠ a := by
  induction l with
  | nil => simp [removeCell]
  | cons c rest ih =>
    obtain ⟨k, w⟩ := c
    by_cases h : k = a
    · simpa [removeCell, h] using ih
    · intro d hd
      simp only [removeCell, h, if_false, List.mem_cons] at hd
      rcases hd with rfl | hd
      · exact h
      · exact ih d hd

/-- A read after a write to the same address gives the value written, in every memory. -/
@[simp] theorem Memory.read_write_same (m : Memory) (a : Nat) (v : Word) : (m.write a v).read a = v := by
  unfold Memory.write Memory.read
  by_cases h : v = unlistedWord
  · simp [h, readCells_removeCell_same]
  · simp [h, readCells_insertCell_same a v _ (removeCell_no_key a m.cells)]

/-- A write leaves every other address alone, in every memory. -/
theorem Memory.read_write_other (m : Memory) {a b : Nat} (v : Word) (h : b ≠ a) : (m.write a v).read b = m.read b := by
  unfold Memory.write Memory.read
  by_cases hv : v = unlistedWord
  · simp [hv, readCells_removeCell_other h]
  · simp [hv, readCells_insertCell_other h, readCells_removeCell_other h]

/-- Both laws at once. -/
theorem Memory.read_write (m : Memory) (a b : Nat) (v : Word) :
    (m.write a v).read b = if b = a then v else m.read b := by
  by_cases h : b = a
  · subst h; simp
  · simp [h, Memory.read_write_other m v h]

/-- The power-on memory reads zero everywhere (10_state.md R40). -/
@[simp] theorem Memory.read_empty (a : Nat) : (⟨[]⟩ : Memory).read a = 0 := rfl

theorem cellsCanonical_weaken {lo lo' : Nat} (h : lo' ≤ lo) (l : List Cell) (hl : cellsCanonical lo l = true) :
    cellsCanonical lo' l = true := by
  cases l with
  | nil => rfl
  | cons c rest =>
    obtain ⟨k, v⟩ := c
    simp only [cellsCanonical, Bool.and_eq_true, decide_eq_true_eq] at hl ⊢
    exact ⟨⟨⟨by omega, hl.1.1.2⟩, hl.1.2⟩, hl.2⟩

theorem cellsCanonical_removeCell {lo : Nat} (a : Nat) (l : List Cell) (hl : cellsCanonical lo l = true) :
    cellsCanonical lo (removeCell a l) = true := by
  induction l generalizing lo with
  | nil => rfl
  | cons c rest ih =>
    obtain ⟨k, v⟩ := c
    simp only [cellsCanonical, Bool.and_eq_true, decide_eq_true_eq] at hl
    by_cases h : k = a
    · simp only [removeCell, h, if_true]
      exact cellsCanonical_weaken (by omega) _ (ih hl.2)
    · simp only [removeCell, h, if_false, cellsCanonical, Bool.and_eq_true, decide_eq_true_eq]
      exact ⟨hl.1, ih hl.2⟩

theorem cellsCanonical_insertCell {lo a : Nat} {v : Word} (l : List Cell) (hl : cellsCanonical lo l = true)
    (hlo : lo ≤ a) (ha : a < Config.memWords) (hv : v ≠ 0) (hk : ∀ c ∈ l, c.1 ≠ a) :
    cellsCanonical lo (insertCell a v l) = true := by
  induction l generalizing lo with
  | nil =>
    simp only [insertCell, cellsCanonical, Bool.and_eq_true, decide_eq_true_eq]
    exact ⟨⟨⟨hlo, ha⟩, hv⟩, trivial⟩
  | cons c rest ih =>
    obtain ⟨k, w⟩ := c
    have hka : k ≠ a := hk (k, w) (by simp)
    simp only [cellsCanonical, Bool.and_eq_true, decide_eq_true_eq] at hl
    by_cases h : a < k
    · simp only [insertCell, h, if_true, cellsCanonical, Bool.and_eq_true, decide_eq_true_eq]
      exact ⟨⟨⟨hlo, ha⟩, hv⟩, ⟨⟨by omega, hl.1.1.2⟩, hl.1.2⟩, hl.2⟩
    · simp only [insertCell, h, if_false, cellsCanonical, Bool.and_eq_true, decide_eq_true_eq]
      exact ⟨hl.1, ih hl.2 (by omega) fun c hc => hk c (by simp [hc])⟩

/-- A write to an existing address keeps the canonical form. -/
theorem Memory.write_wf (m : Memory) {a : Nat} (v : Word) (h : m.wf = true) (ha : a < Config.memWords) :
    (m.write a v).wf = true := by
  have hr := cellsCanonical_removeCell a m.cells h
  by_cases hv : v = unlistedWord
  · simpa [Memory.write, Memory.wf, hv] using hr
  · simp only [Memory.write, Memory.wf, hv, if_false]
    exact cellsCanonical_insertCell _ hr (Nat.zero_le a) ha hv (removeCell_no_key a m.cells)

/-- The power-on memory is canonical. -/
@[simp] theorem Memory.empty_wf : (⟨[]⟩ : Memory).wf = true := rfl

/-- A canonical list whose addresses start above `a` reads zero at `a`. -/
theorem readCells_below {lo a : Nat} (l : List Cell) (hl : cellsCanonical lo l = true) (h : a < lo) :
    readCells l a = unlistedWord := by
  induction l generalizing lo with
  | nil => rfl
  | cons c rest ih =>
    obtain ⟨k, v⟩ := c
    simp only [cellsCanonical, Bool.and_eq_true, decide_eq_true_eq] at hl
    have hk : k ≠ a := by omega
    simp only [readCells, hk, if_false]
    exact ih hl.2 (by omega)

/-- A canonical memory holds nothing at an address that names no word. -/
theorem readCells_above {lo a : Nat} (l : List Cell) (hl : cellsCanonical lo l = true) (h : Config.memWords ≤ a) :
    readCells l a = unlistedWord := by
  induction l generalizing lo with
  | nil => rfl
  | cons c rest ih =>
    obtain ⟨k, v⟩ := c
    simp only [cellsCanonical, Bool.and_eq_true, decide_eq_true_eq] at hl
    have hk : k ≠ a := by omega
    simp only [readCells, hk, if_false]
    exact ih hl.2

theorem cells_ext {lo : Nat} (l l' : List Cell) (hl : cellsCanonical lo l = true) (hl' : cellsCanonical lo l' = true)
    (h : ∀ a, readCells l a = readCells l' a) : l = l' := by
  induction l generalizing lo l' with
  | nil =>
    cases l' with
    | nil => rfl
    | cons c rest =>
      obtain ⟨k, v⟩ := c
      simp only [cellsCanonical, Bool.and_eq_true, decide_eq_true_eq] at hl'
      have := h k
      simp only [readCells, if_true] at this
      exact absurd this.symm hl'.1.2
  | cons c rest ih =>
    obtain ⟨k, v⟩ := c
    cases l' with
    | nil =>
      simp only [cellsCanonical, Bool.and_eq_true, decide_eq_true_eq] at hl
      have := h k
      simp only [readCells, if_true] at this
      exact absurd this hl.1.2
    | cons c' rest' =>
      obtain ⟨k', v'⟩ := c'
      simp only [cellsCanonical, Bool.and_eq_true, decide_eq_true_eq] at hl hl'
      have below := fun b hb => readCells_below (a := b) rest hl.2 hb
      have below' := fun b hb => readCells_below (a := b) rest' hl'.2 hb
      have hkk : k = k' := by
        rcases Nat.lt_trichotomy k k' with hlt | heq | hgt
        · have := h k
          rw [show readCells ((k', v') :: rest') k = readCells rest' k by simp [readCells, Nat.ne_of_gt hlt],
            below' k (by omega)] at this
          simp only [readCells, if_true] at this
          exact absurd this hl.1.2
        · exact heq
        · have := h k'
          rw [show readCells ((k, v) :: rest) k' = readCells rest k' by simp [readCells, Nat.ne_of_gt hgt],
            below k' (by omega)] at this
          simp only [readCells, if_true] at this
          exact absurd this.symm hl'.1.2
      subst hkk
      have hvv : v = v' := by simpa [readCells] using h k
      subst hvv
      have hrest : rest = rest' := by
        refine ih rest' hl.2 hl'.2 fun a => ?_
        by_cases ha : k = a
        · subst ha
          rw [below k (by omega), below' k (by omega)]
        · simpa [readCells, ha] using h a
      rw [hrest]

/-- Canonical memories that read alike at every address are equal. -/
theorem Memory.eq_of_read {m m' : Memory} (h : m.wf = true) (h' : m'.wf = true) (hr : ∀ a, m.read a = m'.read a) :
    m = m' := by
  cases m; cases m'
  simp only [Memory.mk.injEq]
  exact cells_ext _ _ h h' hr

end Sys2Proof.Machine
end

