-- ==== Sys2Proof/Laws/State.lean ====
section
/-! SUPPORT. One lemma for each field of State and each update of it, all true by unfolding, so that no later proof unfolds a
record update. -/

namespace Sys2Proof.Machine

variable (s : State)

/-! ### pc <- v -/
@[simp] theorem State.withPc_pc (v : Addr) : (s.withPc v).pc = v := rfl
@[simp] theorem State.withPc_mar (v : Addr) : (s.withPc v).mar = s.mar := rfl
@[simp] theorem State.withPc_ir (v : Addr) : (s.withPc v).ir = s.ir := rfl
@[simp] theorem State.withPc_ibr (v : Addr) : (s.withPc v).ibr = s.ibr := rfl
@[simp] theorem State.withPc_mbr (v : Addr) : (s.withPc v).mbr = s.mbr := rfl
@[simp] theorem State.withPc_ac (v : Addr) : (s.withPc v).ac = s.ac := rfl
@[simp] theorem State.withPc_mq (v : Addr) : (s.withPc v).mq = s.mq := rfl
@[simp] theorem State.withPc_ctrl (v : Addr) : (s.withPc v).ctrl = s.ctrl := rfl
@[simp] theorem State.withPc_mem (v : Addr) : (s.withPc v).mem = s.mem := rfl

/-! ### mar <- v -/
@[simp] theorem State.withMar_pc (v : Addr) : (s.withMar v).pc = s.pc := rfl
@[simp] theorem State.withMar_mar (v : Addr) : (s.withMar v).mar = v := rfl
@[simp] theorem State.withMar_ir (v : Addr) : (s.withMar v).ir = s.ir := rfl
@[simp] theorem State.withMar_ibr (v : Addr) : (s.withMar v).ibr = s.ibr := rfl
@[simp] theorem State.withMar_mbr (v : Addr) : (s.withMar v).mbr = s.mbr := rfl
@[simp] theorem State.withMar_ac (v : Addr) : (s.withMar v).ac = s.ac := rfl
@[simp] theorem State.withMar_mq (v : Addr) : (s.withMar v).mq = s.mq := rfl
@[simp] theorem State.withMar_ctrl (v : Addr) : (s.withMar v).ctrl = s.ctrl := rfl
@[simp] theorem State.withMar_mem (v : Addr) : (s.withMar v).mem = s.mem := rfl

/-! ### ir <- v -/
@[simp] theorem State.withIr_pc (v : Opcode) : (s.withIr v).pc = s.pc := rfl
@[simp] theorem State.withIr_mar (v : Opcode) : (s.withIr v).mar = s.mar := rfl
@[simp] theorem State.withIr_ir (v : Opcode) : (s.withIr v).ir = v := rfl
@[simp] theorem State.withIr_ibr (v : Opcode) : (s.withIr v).ibr = s.ibr := rfl
@[simp] theorem State.withIr_mbr (v : Opcode) : (s.withIr v).mbr = s.mbr := rfl
@[simp] theorem State.withIr_ac (v : Opcode) : (s.withIr v).ac = s.ac := rfl
@[simp] theorem State.withIr_mq (v : Opcode) : (s.withIr v).mq = s.mq := rfl
@[simp] theorem State.withIr_ctrl (v : Opcode) : (s.withIr v).ctrl = s.ctrl := rfl
@[simp] theorem State.withIr_mem (v : Opcode) : (s.withIr v).mem = s.mem := rfl

/-! ### ibr <- v -/
@[simp] theorem State.withIbr_pc (v : Field) : (s.withIbr v).pc = s.pc := rfl
@[simp] theorem State.withIbr_mar (v : Field) : (s.withIbr v).mar = s.mar := rfl
@[simp] theorem State.withIbr_ir (v : Field) : (s.withIbr v).ir = s.ir := rfl
@[simp] theorem State.withIbr_ibr (v : Field) : (s.withIbr v).ibr = v := rfl
@[simp] theorem State.withIbr_mbr (v : Field) : (s.withIbr v).mbr = s.mbr := rfl
@[simp] theorem State.withIbr_ac (v : Field) : (s.withIbr v).ac = s.ac := rfl
@[simp] theorem State.withIbr_mq (v : Field) : (s.withIbr v).mq = s.mq := rfl
@[simp] theorem State.withIbr_ctrl (v : Field) : (s.withIbr v).ctrl = s.ctrl := rfl
@[simp] theorem State.withIbr_mem (v : Field) : (s.withIbr v).mem = s.mem := rfl

/-! ### mbr <- v -/
@[simp] theorem State.withMbr_pc (v : Word) : (s.withMbr v).pc = s.pc := rfl
@[simp] theorem State.withMbr_mar (v : Word) : (s.withMbr v).mar = s.mar := rfl
@[simp] theorem State.withMbr_ir (v : Word) : (s.withMbr v).ir = s.ir := rfl
@[simp] theorem State.withMbr_ibr (v : Word) : (s.withMbr v).ibr = s.ibr := rfl
@[simp] theorem State.withMbr_mbr (v : Word) : (s.withMbr v).mbr = v := rfl
@[simp] theorem State.withMbr_ac (v : Word) : (s.withMbr v).ac = s.ac := rfl
@[simp] theorem State.withMbr_mq (v : Word) : (s.withMbr v).mq = s.mq := rfl
@[simp] theorem State.withMbr_ctrl (v : Word) : (s.withMbr v).ctrl = s.ctrl := rfl
@[simp] theorem State.withMbr_mem (v : Word) : (s.withMbr v).mem = s.mem := rfl

/-! ### ac <- v -/
@[simp] theorem State.withAc_pc (v : Word) : (s.withAc v).pc = s.pc := rfl
@[simp] theorem State.withAc_mar (v : Word) : (s.withAc v).mar = s.mar := rfl
@[simp] theorem State.withAc_ir (v : Word) : (s.withAc v).ir = s.ir := rfl
@[simp] theorem State.withAc_ibr (v : Word) : (s.withAc v).ibr = s.ibr := rfl
@[simp] theorem State.withAc_mbr (v : Word) : (s.withAc v).mbr = s.mbr := rfl
@[simp] theorem State.withAc_ac (v : Word) : (s.withAc v).ac = v := rfl
@[simp] theorem State.withAc_mq (v : Word) : (s.withAc v).mq = s.mq := rfl
@[simp] theorem State.withAc_ctrl (v : Word) : (s.withAc v).ctrl = s.ctrl := rfl
@[simp] theorem State.withAc_mem (v : Word) : (s.withAc v).mem = s.mem := rfl

/-! ### mq <- v -/
@[simp] theorem State.withMq_pc (v : Word) : (s.withMq v).pc = s.pc := rfl
@[simp] theorem State.withMq_mar (v : Word) : (s.withMq v).mar = s.mar := rfl
@[simp] theorem State.withMq_ir (v : Word) : (s.withMq v).ir = s.ir := rfl
@[simp] theorem State.withMq_ibr (v : Word) : (s.withMq v).ibr = s.ibr := rfl
@[simp] theorem State.withMq_mbr (v : Word) : (s.withMq v).mbr = s.mbr := rfl
@[simp] theorem State.withMq_ac (v : Word) : (s.withMq v).ac = s.ac := rfl
@[simp] theorem State.withMq_mq (v : Word) : (s.withMq v).mq = v := rfl
@[simp] theorem State.withMq_ctrl (v : Word) : (s.withMq v).ctrl = s.ctrl := rfl
@[simp] theorem State.withMq_mem (v : Word) : (s.withMq v).mem = s.mem := rfl

/-! ### ctrl <- v -/
@[simp] theorem State.withCtrl_pc (v : Ctrl) : (s.withCtrl v).pc = s.pc := rfl
@[simp] theorem State.withCtrl_mar (v : Ctrl) : (s.withCtrl v).mar = s.mar := rfl
@[simp] theorem State.withCtrl_ir (v : Ctrl) : (s.withCtrl v).ir = s.ir := rfl
@[simp] theorem State.withCtrl_ibr (v : Ctrl) : (s.withCtrl v).ibr = s.ibr := rfl
@[simp] theorem State.withCtrl_mbr (v : Ctrl) : (s.withCtrl v).mbr = s.mbr := rfl
@[simp] theorem State.withCtrl_ac (v : Ctrl) : (s.withCtrl v).ac = s.ac := rfl
@[simp] theorem State.withCtrl_mq (v : Ctrl) : (s.withCtrl v).mq = s.mq := rfl
@[simp] theorem State.withCtrl_ctrl (v : Ctrl) : (s.withCtrl v).ctrl = v := rfl
@[simp] theorem State.withCtrl_mem (v : Ctrl) : (s.withCtrl v).mem = s.mem := rfl

/-! ### mem <- v -/
@[simp] theorem State.withMem_pc (v : Memory) : (s.withMem v).pc = s.pc := rfl
@[simp] theorem State.withMem_mar (v : Memory) : (s.withMem v).mar = s.mar := rfl
@[simp] theorem State.withMem_ir (v : Memory) : (s.withMem v).ir = s.ir := rfl
@[simp] theorem State.withMem_ibr (v : Memory) : (s.withMem v).ibr = s.ibr := rfl
@[simp] theorem State.withMem_mbr (v : Memory) : (s.withMem v).mbr = s.mbr := rfl
@[simp] theorem State.withMem_ac (v : Memory) : (s.withMem v).ac = s.ac := rfl
@[simp] theorem State.withMem_mq (v : Memory) : (s.withMem v).mq = s.mq := rfl
@[simp] theorem State.withMem_ctrl (v : Memory) : (s.withMem v).ctrl = s.ctrl := rfl
@[simp] theorem State.withMem_mem (v : Memory) : (s.withMem v).mem = v := rfl

/-! ### advance CTRL -/
@[simp] theorem State.advance_pc : s.advance.pc = s.pc := rfl
@[simp] theorem State.advance_mar : s.advance.mar = s.mar := rfl
@[simp] theorem State.advance_ir : s.advance.ir = s.ir := rfl
@[simp] theorem State.advance_ibr : s.advance.ibr = s.ibr := rfl
@[simp] theorem State.advance_mbr : s.advance.mbr = s.mbr := rfl
@[simp] theorem State.advance_ac : s.advance.ac = s.ac := rfl
@[simp] theorem State.advance_mq : s.advance.mq = s.mq := rfl
@[simp] theorem State.advance_ctrl : s.advance.ctrl = s.ctrl.advanced := rfl
@[simp] theorem State.advance_mem : s.advance.mem = s.mem := rfl

/-! ### IR and MAR receive an instruction field -/
@[simp] theorem State.loadInstruction_pc (f : Field) : (s.loadInstruction f).pc = s.pc := rfl
@[simp] theorem State.loadInstruction_mar (f : Field) : (s.loadInstruction f).mar = fieldAddr f := rfl
@[simp] theorem State.loadInstruction_ir (f : Field) : (s.loadInstruction f).ir = fieldOpcode f := rfl
@[simp] theorem State.loadInstruction_ibr (f : Field) : (s.loadInstruction f).ibr = s.ibr := rfl
@[simp] theorem State.loadInstruction_mbr (f : Field) : (s.loadInstruction f).mbr = s.mbr := rfl
@[simp] theorem State.loadInstruction_ac (f : Field) : (s.loadInstruction f).ac = s.ac := rfl
@[simp] theorem State.loadInstruction_mq (f : Field) : (s.loadInstruction f).mq = s.mq := rfl
@[simp] theorem State.loadInstruction_ctrl (f : Field) : (s.loadInstruction f).ctrl = s.ctrl := rfl
@[simp] theorem State.loadInstruction_mem (f : Field) : (s.loadInstruction f).mem = s.mem := rfl

/-! ### reset() and zeroAllRAM() -/
@[simp] theorem resetCall_pc : (resetCall s).pc = 0 := rfl
@[simp] theorem resetCall_mar : (resetCall s).mar = s.mar := rfl
@[simp] theorem resetCall_ir : (resetCall s).ir = s.ir := rfl
@[simp] theorem resetCall_ibr : (resetCall s).ibr = s.ibr := rfl
@[simp] theorem resetCall_mbr : (resetCall s).mbr = s.mbr := rfl
@[simp] theorem resetCall_ac : (resetCall s).ac = s.ac := rfl
@[simp] theorem resetCall_mq : (resetCall s).mq = s.mq := rfl
@[simp] theorem resetCall_ctrl : (resetCall s).ctrl = .leftFetch := rfl
@[simp] theorem resetCall_mem : (resetCall s).mem = s.mem := rfl
@[simp] theorem zeroAllRAM_pc : (zeroAllRAM s).pc = s.pc := rfl
@[simp] theorem zeroAllRAM_mar : (zeroAllRAM s).mar = s.mar := rfl
@[simp] theorem zeroAllRAM_ir : (zeroAllRAM s).ir = s.ir := rfl
@[simp] theorem zeroAllRAM_ibr : (zeroAllRAM s).ibr = s.ibr := rfl
@[simp] theorem zeroAllRAM_mbr : (zeroAllRAM s).mbr = s.mbr := rfl
@[simp] theorem zeroAllRAM_ac : (zeroAllRAM s).ac = s.ac := rfl
@[simp] theorem zeroAllRAM_mq : (zeroAllRAM s).mq = s.mq := rfl
@[simp] theorem zeroAllRAM_ctrl : (zeroAllRAM s).ctrl = s.ctrl := rfl
@[simp] theorem zeroAllRAM_mem : (zeroAllRAM s).mem = ⟨[]⟩ := rfl

/-! ### Control states -/
@[simp] theorem Ctrl.advanced_leftExecute : Ctrl.leftExecute.advanced = .rightFetch := rfl
@[simp] theorem Ctrl.advanced_rightExecute : Ctrl.rightExecute.advanced = .leftFetch := rfl
@[simp] theorem Ctrl.isExecute_leftExecute : Ctrl.leftExecute.isExecute = true := rfl
@[simp] theorem Ctrl.isExecute_rightExecute : Ctrl.rightExecute.isExecute = true := rfl
@[simp] theorem Ctrl.isExecute_leftFetch : Ctrl.leftFetch.isExecute = false := rfl
@[simp] theorem Ctrl.isExecute_rightFetch : Ctrl.rightFetch.isExecute = false := rfl
@[simp] theorem Ctrl.isExecute_rightFetchRAM : Ctrl.rightFetchRAM.isExecute = false := rfl

/-- The execute states are exactly two. -/
theorem Ctrl.isExecute_iff (c : Ctrl) : c.isExecute = true ↔ c = .leftExecute ∨ c = .rightExecute := by
  cases c <;> simp [Ctrl.isExecute]

/-- Advancing leaves the execute states. -/
theorem Ctrl.advanced_not_execute (c : Ctrl) : c.advanced.isExecute = false := by
  cases c <;> rfl

end Sys2Proof.Machine
end

