-- ==== Sys2Proof/Laws/Ops.lean ====
section
/-! SUPPORT. What each shared operation can do, said once: the provers cite these instead of unfolding the operation. -/

namespace Sys2Proof.Machine

@[simp] theorem raise_eq (k : Fault) : raise k = .fault k := rfl

/-! ### The guard of execute() -/

theorem executing_of_execute {s : State} (h : s.ctrl.isExecute = true) (r : Result) : executing s r = r := by
  simp [executing, h]

theorem executing_of_fetch {s : State} (h : s.ctrl.isExecute = false) (r : Result) :
    executing s r = .fault .invalidExecution := by
  simp [executing, h]

/-- A guarded effect that goes on ran in an execute state. -/
theorem executing_next {s t : State} {r : Result} (h : executing s r = .next t) :
    s.ctrl.isExecute = true ∧ r = .next t := by
  unfold executing at h
  split at h
  · exact ⟨‹_›, h⟩
  · cases h

/-- A guarded effect fails by the guard or by itself. -/
theorem executing_fault {s : State} {r : Result} {k : Fault} (h : executing s r = .fault k) :
    (s.ctrl.isExecute = false ∧ k = .invalidExecution) ∨ (s.ctrl.isExecute = true ∧ r = .fault k) := by
  unfold executing at h
  split at h
  · exact .inr ⟨‹_›, h⟩
  · cases h; exact .inl ⟨by simp_all, rfl⟩

theorem executing_refused {s : State} {r : Result} {k : Refusal} (h : executing s r = .refused k) : r = .refused k := by
  unfold executing at h
  split at h
  · exact h
  · cases h

/-! ### The address check -/

theorem inMemory_iff (a : Nat) : inMemory a = true ↔ a < Config.memWords := by simp [inMemory]

theorem checkedAddress_of_lt {x : Addr} (h : x.toNat < Config.memWords) (r : Result) : checkedAddress x r = r := by
  simp [checkedAddress, inMemory, h]

theorem checkedAddress_of_ge {x : Addr} (h : ¬x.toNat < Config.memWords) (r : Result) :
    checkedAddress x r = .fault (.invalidAccess x.toNat) := by
  simp [checkedAddress, inMemory, h]

theorem checkedAddress_next {x : Addr} {t : State} {r : Result} (h : checkedAddress x r = .next t) :
    x.toNat < Config.memWords ∧ r = .next t := by
  unfold checkedAddress at h
  split at h
  · exact ⟨by simp_all [inMemory], h⟩
  · cases h

theorem checkedAddress_fault {x : Addr} {r : Result} {k : Fault} (h : checkedAddress x r = .fault k) :
    (¬x.toNat < Config.memWords ∧ k = .invalidAccess x.toNat) ∨ (x.toNat < Config.memWords ∧ r = .fault k) := by
  unfold checkedAddress at h
  split at h
  · exact .inr ⟨by simp_all [inMemory], h⟩
  · cases h; exact .inl ⟨by simp_all [inMemory], rfl⟩

theorem checkedAddress_refused {x : Addr} {r : Result} {k : Refusal} (h : checkedAddress x r = .refused k) :
    r = .refused k := by
  unfold checkedAddress at h
  split at h
  · exact h
  · cases h

/-! ### The memory operand -/

/-- In an execute state, with an existing address, the effect runs on the word read. -/
theorem withOperand_eq {x : Addr} {s : State} (hc : s.ctrl.isExecute = true) (hx : x.toNat < Config.memWords)
    (effect : Word → Result) : withOperand x s effect = effect (s.mem.read x.toNat) := by
  rw [withOperand, executing_of_execute hc, checkedAddress_of_lt hx]

/-- All that an effect on a memory operand can do when it goes on. -/
theorem withOperand_next {x : Addr} {s t : State} {effect : Word → Result} (h : withOperand x s effect = .next t) :
    s.ctrl.isExecute = true ∧ x.toNat < Config.memWords ∧ effect (s.mem.read x.toNat) = .next t :=
  have ⟨hc, h⟩ := executing_next h
  have ⟨hx, h⟩ := checkedAddress_next h
  ⟨hc, hx, h⟩

/-- All the ways it can fail, in the order of 60_exceptions.md R192. -/
theorem withOperand_fault {x : Addr} {s : State} {effect : Word → Result} {k : Fault}
    (h : withOperand x s effect = .fault k) :
    (s.ctrl.isExecute = false ∧ k = .invalidExecution)
      ∨ (s.ctrl.isExecute = true ∧ ¬x.toNat < Config.memWords ∧ k = .invalidAccess x.toNat)
      ∨ (s.ctrl.isExecute = true ∧ x.toNat < Config.memWords ∧ effect (s.mem.read x.toNat) = .fault k) := by
  rcases executing_fault h with h | ⟨hc, h⟩
  · exact .inl h
  · rcases checkedAddress_fault h with h | h
    · exact .inr (.inl ⟨hc, h⟩)
    · exact .inr (.inr ⟨hc, h⟩)

theorem withOperand_refused {x : Addr} {s : State} {effect : Word → Result} {k : Refusal}
    (h : withOperand x s effect = .refused k) : effect (s.mem.read x.toNat) = .refused k :=
  checkedAddress_refused (executing_refused h)

/-! ### The parameters of 00_scope.md R7 at the values the spec decides -/

@[simp] theorem State.bufferUnnamed_eq (s : State) (m : Word) : s.bufferUnnamed m = s := rfl

@[simp] theorem jumpTo_eq (x : Addr) (half : Ctrl) (s : State) :
    jumpTo x half s = .next ((s.withPc x).withCtrl half) := rfl

@[simp] theorem jumpNotTaken_eq (s : State) : jumpNotTaken s = .next s.advance := rfl

/-! ### Sequencing two operations -/

/-- Two operations go on when both do. -/
theorem andThen_next {r : Result} {f : State → Result} {u : State} :
    andThen r f = .next u ↔ ∃ t, r = .next t ∧ f t = .next u := by
  cases r <;> simp [andThen]

theorem andThen_fault {r : Result} {f : State → Result} {k : Fault} :
    andThen r f = .fault k ↔ r = .fault k ∨ ∃ t, r = .next t ∧ f t = .fault k := by
  cases r <;> simp [andThen]

/-! ### fetch() -/

theorem fetchFromMemory_next {s t : State} {rest : Word → State → State} (h : fetchFromMemory s rest = .next t) :
    s.pc.toNat < Config.memWords
      ∧ t = rest (s.mem.read s.pc.toNat) (s.withMbr (s.mem.read s.pc.toNat)) := by
  unfold fetchFromMemory at h
  split at h
  · exact ⟨by simp_all [inMemory], by cases h; rfl⟩
  · cases h

theorem fetchFromMemory_fault {s : State} {rest : Word → State → State} {k : Fault}
    (h : fetchFromMemory s rest = .fault k) :
    ¬s.pc.toNat < Config.memWords ∧ k = .invalidFetch (some s.pc) := by
  unfold fetchFromMemory at h
  split at h
  · cases h
  · cases h; exact ⟨by simp_all [inMemory], rfl⟩

/-- All that a fetch can do when it goes on (40_fetch_execute.md R102 to R104). -/
theorem fetch_next {s t : State} (h : fetch s = .next t) :
    (s.ctrl = .leftFetch ∧ s.pc.toNat < Config.memWords
      ∧ t = (((s.withMbr (s.mem.read s.pc.toNat)).loadInstruction (leftField (s.mem.read s.pc.toNat))).withIbr
          (rightField (s.mem.read s.pc.toNat))).withCtrl .leftExecute)
    ∨ (s.ctrl = .rightFetch ∧ s.pc.toNat ≠ 4095
      ∧ t = ((s.loadInstruction s.ibr).withPc (s.pc + 1)).withCtrl .rightExecute)
    ∨ (s.ctrl = .rightFetchRAM ∧ s.pc.toNat < Config.memWords
      ∧ t = (((s.withMbr (s.mem.read s.pc.toNat)).loadInstruction (rightField (s.mem.read s.pc.toNat))).withPc
          (s.pc + 1)).withCtrl .rightExecute) := by
  unfold fetch at h
  split at h
  · have ⟨hp, ht⟩ := fetchFromMemory_next h
    exact .inl ⟨‹_›, hp, ht⟩
  · unfold fetchRight at h
    split at h
    · cases h
    · cases h; exact .inr (.inl ⟨‹_›, ‹_›, rfl⟩)
  · have ⟨hp, ht⟩ := fetchFromMemory_next h
    exact .inr (.inr ⟨‹_›, hp, ht⟩)
  · cases h
  · cases h

/-- All the ways a fetch can fail (40_fetch_execute.md R102 to R105). -/
theorem fetch_fault {s : State} {k : Fault} (h : fetch s = .fault k) :
    (s.ctrl.isExecute = true ∧ k = .invalidFetch none)
    ∨ ((s.ctrl = .leftFetch ∨ s.ctrl = .rightFetchRAM) ∧ ¬s.pc.toNat < Config.memWords
      ∧ k = .invalidFetch (some s.pc))
    ∨ (s.ctrl = .rightFetch ∧ s.pc.toNat = 4095 ∧ k = .invalidData s.pc) := by
  unfold fetch at h
  split at h
  · exact .inr (.inl ⟨.inl ‹_›, fetchFromMemory_fault h⟩)
  · unfold fetchRight at h
    split at h
    · cases h; exact .inr (.inr ⟨‹_›, ‹_›, rfl⟩)
    · cases h
  · exact .inr (.inl ⟨.inr ‹_›, fetchFromMemory_fault h⟩)
  · cases h; exact .inl ⟨by simp_all, rfl⟩
  · cases h; exact .inl ⟨by simp_all, rfl⟩

/-- A fetch never answers with a refusal. -/
theorem fetch_refused {s : State} {k : Refusal} : fetch s ≠ .refused k := by
  intro h
  unfold fetch fetchLeft fetchRight fetchRightRAM fetchFromMemory at h
  split at h <;> first | (split at h <;> cases h) | cases h

end Sys2Proof.Machine
end

