-- ==== Sys2Proof/Laws/PerInstr.lean ====
section
/-! SUPPORT. The per-instruction family EncodesInTable: what holds of every instruction as syntax. -/

/-- The encoding of an instruction lies in the table: its opcode is one of the 20 of 30_encoding.md R74, its address field
holds the operand (R73), and the instruction is well-formed. -/
def Sys2Proof.Laws.EncodesInTable.Statement (i : Sys2Proof.Instr) : Prop :=
  Sys2Proof.opcodeDefined (Sys2Proof.fieldOpcode (Sys2Proof.encode i)) = true
    ∧ Sys2Proof.fieldAddr (Sys2Proof.encode i) = i.operand ∧ i.wellFormed = true

namespace Sys2Proof.Laws

/-- The number of a field: `opcode * 4096 + addr` (30_encoding.md R70). -/
theorem makeField_toNat (op : Opcode) (x : Addr) : (makeField op x).toNat = op.toNat * 4096 + x.toNat := by
  have hx : x.toNat < 4096 := x.isLt
  simp only [makeField, BitVec.toNat_append]
  rw [← Nat.shiftLeft_add_eq_or_of_lt hx, Nat.shiftLeft_eq]

theorem fieldOpcode_toNat (f : Field) : (fieldOpcode f).toNat = f.toNat / 4096 := by
  have h : f.toNat < 1048576 := f.isLt
  simp only [fieldOpcode, BitVec.extractLsb'_toNat, Nat.shiftRight_eq_div_pow]
  omega

theorem fieldAddr_toNat (f : Field) : (fieldAddr f).toNat = f.toNat % 4096 := by
  simp only [fieldAddr, BitVec.extractLsb'_toNat, Nat.shiftRight_eq_div_pow]
  omega

/-- The opcode of a field put together from its parts. -/
@[simp] theorem fieldOpcode_makeField (op : Opcode) (x : Addr) : fieldOpcode (makeField op x) = op := by
  have hx : x.toNat < 4096 := x.isLt
  apply BitVec.eq_of_toNat_eq
  rw [fieldOpcode_toNat, makeField_toNat]
  omega

/-- The address of a field put together from its parts. -/
@[simp] theorem fieldAddr_makeField (op : Opcode) (x : Addr) : fieldAddr (makeField op x) = x := by
  have hx : x.toNat < 4096 := x.isLt
  apply BitVec.eq_of_toNat_eq
  rw [fieldAddr_toNat, makeField_toNat]
  omega

/-- A field is its two parts. -/
@[simp] theorem makeField_parts (f : Field) : makeField (fieldOpcode f) (fieldAddr f) = f := by
  apply BitVec.eq_of_toNat_eq
  rw [makeField_toNat, fieldOpcode_toNat, fieldAddr_toNat]
  omega

/-- What the family says follows from the opcode being in the table. -/
theorem encodesInTable_of_opcode (i : Instr) (h : opcodeDefined i.opcode = true) : EncodesInTable.Statement i := by
  refine ⟨?_, ?_, ?_⟩
  · simpa [encode] using h
  · simp [encode]
  · simpa [Instr.wellFormed] using i.operand.isLt

namespace EncodesInTable

theorem loadM (x : Addr) : Statement (.loadM x) := encodesInTable_of_opcode _ rfl
theorem loadNegM (x : Addr) : Statement (.loadNegM x) := encodesInTable_of_opcode _ rfl
theorem loadAbsM (x : Addr) : Statement (.loadAbsM x) := encodesInTable_of_opcode _ rfl
theorem addM (x : Addr) : Statement (.addM x) := encodesInTable_of_opcode _ rfl
theorem subM (x : Addr) : Statement (.subM x) := encodesInTable_of_opcode _ rfl
theorem addAbsM (x : Addr) : Statement (.addAbsM x) := encodesInTable_of_opcode _ rfl
theorem subAbsM (x : Addr) : Statement (.subAbsM x) := encodesInTable_of_opcode _ rfl
theorem loadMqM (x : Addr) : Statement (.loadMqM x) := encodesInTable_of_opcode _ rfl
theorem loadMq (x : Addr) : Statement (.loadMq x) := encodesInTable_of_opcode _ rfl
theorem mulM (x : Addr) : Statement (.mulM x) := encodesInTable_of_opcode _ rfl
theorem divM (x : Addr) : Statement (.divM x) := encodesInTable_of_opcode _ rfl
theorem jumpLeft (x : Addr) : Statement (.jumpLeft x) := encodesInTable_of_opcode _ rfl
theorem jumpRight (x : Addr) : Statement (.jumpRight x) := encodesInTable_of_opcode _ rfl
theorem jumpPlusLeft (x : Addr) : Statement (.jumpPlusLeft x) := encodesInTable_of_opcode _ rfl
theorem jumpPlusRight (x : Addr) : Statement (.jumpPlusRight x) := encodesInTable_of_opcode _ rfl
theorem storLeftAddr (x : Addr) : Statement (.storLeftAddr x) := encodesInTable_of_opcode _ rfl
theorem storRightAddr (x : Addr) : Statement (.storRightAddr x) := encodesInTable_of_opcode _ rfl
theorem lsh (x : Addr) : Statement (.lsh x) := encodesInTable_of_opcode _ rfl
theorem rsh (x : Addr) : Statement (.rsh x) := encodesInTable_of_opcode _ rfl
theorem storM (x : Addr) : Statement (.storM x) := encodesInTable_of_opcode _ rfl

end EncodesInTable

end Sys2Proof.Laws
end

