-- ==== Sys2Proof/Laws/Step.lean ====
section
/-! SUPPORT. What `execute()` and one step can do, said once. -/

namespace Sys2Proof.Machine

/-- The instruction in flight after IR and MAR received a field is that field. -/
@[simp] theorem State.inFlight_loadInstruction (s : State) (f : Field) : (s.loadInstruction f).inFlight = f := by
  simp [State.inFlight]

/-- `execute()` of a defined opcode in an execute state is the meaning of the instruction in flight. -/
theorem execute_of_decode {s : State} {i : Instr} (hc : s.ctrl.isExecute = true) (hd : decode s.inFlight = .ok i) :
    execute s = exec i s := by
  simp [execute, executing, hc, hd]

/-- When `execute()` goes on, it ran the instruction in flight. -/
theorem execute_next {s t : State} (h : execute s = .next t) :
    s.ctrl.isExecute = true ∧ ∃ i, decode s.inFlight = .ok i ∧ exec i s = .next t := by
  have ⟨hc, h⟩ := executing_next h
  refine ⟨hc, ?_⟩
  split at h
  · exact ⟨_, ‹_›, h⟩
  · cases h

/-- All the ways `execute()` can fail, in the order of 60_exceptions.md R192. -/
theorem execute_fault {s : State} {k : Fault} (h : execute s = .fault k) :
    (s.ctrl.isExecute = false ∧ k = .invalidExecution)
    ∨ (s.ctrl.isExecute = true ∧ (∃ e, decode s.inFlight = .error e) ∧ k = .invalidInstruction (failingAddress s))
    ∨ (s.ctrl.isExecute = true ∧ ∃ i, decode s.inFlight = .ok i ∧ exec i s = .fault k) := by
  rcases executing_fault h with h | ⟨hc, h⟩
  · exact .inl h
  · split at h
    · exact .inr (.inr ⟨hc, _, ‹_›, h⟩)
    · cases h; exact .inr (.inl ⟨hc, ⟨_, ‹_›⟩, rfl⟩)

/-- A refusal of `execute()` would be one of a meaning. -/
theorem execute_refused {s : State} {k : Refusal} (h : execute s = .refused k) :
    ∃ i, decode s.inFlight = .ok i ∧ exec i s = .refused k := by
  have h := executing_refused h
  split at h
  · exact ⟨_, ‹_›, h⟩
  · cases h

/-- A step with an instruction in flight is `execute()`. -/
theorem step_of_execute {s : State} (h : s.ctrl.isExecute = true) : step s = execute s := by
  simp [step, h]

/-- A step from a fetch state is the two operations. -/
theorem step_of_fetch {s : State} (h : s.ctrl.isExecute = false) : step s = andThen (fetch s) execute := by
  simp [step, h]

/-- When a step goes on, the instruction in flight ran, on the state itself or on the one the fetch left. -/
theorem step_next {s u : State} (h : step s = .next u) :
    (s.ctrl.isExecute = true ∧ execute s = .next u)
    ∨ (s.ctrl.isExecute = false ∧ ∃ t, fetch s = .next t ∧ execute t = .next u) := by
  unfold step at h
  split at h
  · exact .inl ⟨‹_›, h⟩
  · exact .inr ⟨by simp_all, andThen_next.1 h⟩

end Sys2Proof.Machine
end

