-- ==== Sys2Proof/Laws/Text.lean ====
section
/-! SUPPORT. Hexadecimal digits written and read back, and what is white space among them. -/

namespace Sys2Proof.Machine

theorem hexDigit_cases {P : Nat → Prop} (h : ∀ i : Fin 16, P i.val) {n : Nat} (hn : n < 16) : P n := h ⟨n, hn⟩

/-- A digit written reads back. -/
theorem hexDigitValue_hexDigit {n : Nat} (h : n < 16) : hexDigitValue (hexDigit n) = some n :=
  hexDigit_cases (P := fun n => hexDigitValue (hexDigit n) = some n) (by decide) h

/-- A digit written is no white space. -/
theorem isSpace_hexDigit {n : Nat} (h : n < 16) : isSpace (hexDigit n) = false :=
  hexDigit_cases (P := fun n => isSpace (hexDigit n) = false) (by decide) h

/-- A digit written is its own capital. -/
theorem upperChar_hexDigit {n : Nat} (h : n < 16) : upperChar (hexDigit n) = hexDigit n :=
  hexDigit_cases (P := fun n => upperChar (hexDigit n) = hexDigit n) (by decide) h

theorem hexFixed_length (k n : Nat) : (hexFixed k n).length = k := by
  induction k generalizing n with
  | zero => rfl
  | succ k ih => simp [hexFixed, ih]

/-- Every character of a number written is a digit written. -/
theorem mem_hexFixed {k n : Nat} {c : Char} (h : c ∈ hexFixed k n) : ∃ d, d < 16 ∧ c = hexDigit d := by
  induction k generalizing n with
  | zero => cases h
  | succ k ih =>
    simp only [hexFixed, List.mem_append, List.mem_singleton] at h
    rcases h with h | h
    · exact ih h
    · exact ⟨n % 16, Nat.mod_lt _ (by decide), h⟩

theorem readHexFrom_append (acc : Nat) (xs ys : Text) :
    readHexFrom acc (xs ++ ys) = (readHexFrom acc xs).bind fun n => readHexFrom n ys := by
  induction xs generalizing acc with
  | nil => rfl
  | cons c xs ih =>
    simp only [List.cons_append, readHexFrom]
    cases hexDigitValue c <;> simp [ih]

/-- A number written in enough digits reads back. -/
theorem readHexFrom_hexFixed (acc k n : Nat) (h : n < 16 ^ k) :
    readHexFrom acc (hexFixed k n) = some (acc * 16 ^ k + n) := by
  induction k generalizing n with
  | zero =>
    have : n = 0 := by simpa using h
    simp [hexFixed, readHexFrom, this]
  | succ k ih =>
    have hq : n / 16 < 16 ^ k := by
      rw [Nat.pow_succ] at h
      exact Nat.div_lt_of_lt_mul (by omega)
    rw [hexFixed, readHexFrom_append, ih _ hq]
    simp only [Option.bind_some, readHexFrom, hexDigitValue_hexDigit (Nat.mod_lt n (by decide : 0 < 16))]
    congr 1
    rw [Nat.pow_succ]
    have := Nat.div_add_mod n 16
    generalize 16 ^ k = p at *
    have e : acc * (p * 16) = (acc * p) * 16 := by rw [Nat.mul_assoc]
    rw [e]
    omega

/-- The run of digits at the start of a text that goes on with a character that is none. -/
theorem spanHex_hexFixed (k n : Nat) (rest : Text) (h : ∀ c ∈ rest.head?, hexDigitValue c = none) :
    spanHex (hexFixed k n ++ rest) = (hexFixed k n, rest) := by
  have key : ∀ xs : Text, (∀ c ∈ xs, (hexDigitValue c).isSome = true) → spanHex (xs ++ rest) = (xs, rest) := by
    intro xs hx
    induction xs with
    | nil =>
      cases rest with
      | nil => rfl
      | cons c rest => simp [spanHex, h c (by simp)]
    | cons c xs ih =>
      have hc := hx c (by simp)
      have := ih fun d hd => hx d (by simp [hd])
      simp [spanHex, hc, this]
  refine key _ fun c hc => ?_
  obtain ⟨d, hd, rfl⟩ := mem_hexFixed hc
  simp [hexDigitValue_hexDigit hd]

/-- Taking the white space out of a number written changes nothing. -/
theorem squeeze_hexFixed (k n : Nat) : squeeze (hexFixed k n) = hexFixed k n := by
  apply List.filter_eq_self.2
  intro c hc
  obtain ⟨d, hd, rfl⟩ := mem_hexFixed hc
  simp [isSpace_hexDigit hd]

/-- The values that an attribute can write as an opcode are those its validator takes. -/
theorem mem_partValues_opcode {n : Nat} (h : n < 256) :
    n ∈ partValues true ↔ opcodeDefined (BitVec.ofNat 8 n) = true := by
  simp only [partValues, if_true, opcodeDefined, List.mem_map, List.contains_iff_mem]
  constructor
  · rintro ⟨op, hop, rfl⟩
    simpa using hop
  · exact fun hop => ⟨_, hop, (BitVec.toNat_ofNat _ _).trans (Nat.mod_eq_of_lt h)⟩

theorem mem_partValues_addr {n : Nat} : n ∈ partValues false ↔ n < 2 ^ 12 := by
  simp only [partValues, Bool.false_eq_true, if_false, List.mem_range]

/-- Two values in three digits or fewer that are written alike are equal. -/
theorem hexFixed_inj {k m n : Nat} (hm : m < 16 ^ k) (hn : n < 16 ^ k) (h : hexFixed k m = hexFixed k n) : m = n := by
  have hm' := readHexFrom_hexFixed 0 k m hm
  rw [h, readHexFrom_hexFixed 0 k n hn] at hm'
  simpa using hm'.symm

/-- The text form of a value that can be written is its own spelling. -/
theorem partText_of_mem {b : Bool} {n : Nat} (h : n ∈ partValues b) :
    n < 16 ^ 3 ∧ partText b n = Config.spelling b (hexFixed 3 n) := by
  cases b with
  | false => exact ⟨mem_partValues_addr.1 h, rfl⟩
  | true =>
    have key : ∀ m ∈ partValues true, m < 256 := by decide
    have hn := key n h
    exact ⟨by omega, by simp [partText, (mem_partValues_opcode hn).1 h]⟩

/-- The text form of a value that can be written reads back (80_host_interface.md R240). -/
theorem partOfText_partText {b : Bool} {n : Nat} (h : n ∈ partValues b) : partOfText b (partText b n) = some n := by
  unfold partOfText
  cases hf : (partValues b).find? fun m => partText b m == partText b n with
  | none => exact absurd (List.find?_eq_none.1 hf n h) (by simp)
  | some m =>
    have hm := List.mem_of_find?_eq_some hf
    have ht : partText b m = partText b n := eq_of_beq (by simpa using List.find?_some hf)
    rw [(partText_of_mem hm).2, (partText_of_mem h).2] at ht
    rw [Option.some_or, hexFixed_inj (partText_of_mem hm).1 (partText_of_mem h).1 ((Config.spelling b).injective ht)]

end Sys2Proof.Machine
end

