-- ==== Sys2Proof/Tests/Slice0.lean ====
section
/-! SUPPORT. The model's own tests: ill-formed terms that the checks refuse; one word of every instruction written out bit by
bit from 30_encoding.md R70 and R74; single steps whose results are those of 95_test_vectors.md; and, for every obligation
with hypotheses, concrete values that meet all of them together. -/

namespace Sys2Proof.Tests

open Sys2Proof Sys2Proof.Machine

/-! ### WellFormed: a term that each check refuses -/

theorem test_field_of_21_bits_is_refused : fitsField 0x101005 = false ∧ fitsField 0xFFFFF = true := by decide
theorem test_undefined_opcodes_are_refused :
    opcodeDefined 0 = false ∧ opcodeDefined 4 = false ∧ opcodeDefined 17 = false ∧ opcodeDefined 0x22 = false := by decide
theorem test_wide_number_is_no_encoding : encodingWellFormed 0x101005 = false := by decide
theorem test_undefined_opcode_is_no_encoding : encodingWellFormed 0x00000 = false ∧ encodingWellFormed 0x04123 = false := by
  decide
theorem test_every_address_is_an_encoding : encodingWellFormed 0x01FFF = true ∧ encodingWellFormed 0x14ABC = true := by decide
theorem test_address_beyond_memory_is_not_assemblable :
    (Instr.loadM 0x400).assemblable = false ∧ (Instr.loadM 0x3FF).assemblable = true := by decide
theorem test_used_field_of_a_shift_is_not_assemblable :
    (Instr.lsh 5).assemblable = false ∧ (Instr.lsh 0).assemblable = true := by decide
theorem test_wide_table_word_is_refused : decodeTableWord 24 0x101005 = none := by rfl

/-! ### Decode: opcode bits 19 to 12, address bits 11 to 0, written out -/

theorem test_decode_loadM : decode 0b00000001000000000101 = .ok (.loadM 5) := by rfl
theorem test_decode_loadNegM : decode 0b00000010000000010000 = .ok (.loadNegM 16) := by rfl
theorem test_decode_loadAbsM : decode 0b00000011100000000001 = .ok (.loadAbsM 0x801) := by rfl
theorem test_decode_addM : decode 0b00000101000000010001 = .ok (.addM 0x011) := by rfl
theorem test_decode_subM : decode 0b00000110000000010001 = .ok (.subM 0x011) := by rfl
theorem test_decode_addAbsM : decode 0b00000111000100000000 = .ok (.addAbsM 0x100) := by rfl
theorem test_decode_subAbsM : decode 0b00001000000100000000 = .ok (.subAbsM 0x100) := by rfl
theorem test_decode_loadMqM : decode 0b00001001001111111111 = .ok (.loadMqM 0x3FF) := by rfl
theorem test_decode_loadMq : decode 0b00001010000000000000 = .ok (.loadMq 0) := by rfl
theorem test_decode_mulM : decode 0b00001011000000100001 = .ok (.mulM 0x021) := by rfl
theorem test_decode_divM : decode 0b00001100000000100010 = .ok (.divM 0x022) := by rfl
theorem test_decode_jumpLeft : decode 0b00001101000000000100 = .ok (.jumpLeft 4) := by rfl
theorem test_decode_jumpRight : decode 0b00001110000000000101 = .ok (.jumpRight 5) := by rfl
theorem test_decode_jumpPlusLeft : decode 0b00001111000000000000 = .ok (.jumpPlusLeft 0) := by rfl
theorem test_decode_jumpPlusRight : decode 0b00010000111111111111 = .ok (.jumpPlusRight 0xFFF) := by rfl
theorem test_decode_storLeftAddr : decode 0b00010010000000000001 = .ok (.storLeftAddr 1) := by rfl
theorem test_decode_storRightAddr : decode 0b00010011000000000010 = .ok (.storRightAddr 2) := by rfl
theorem test_decode_lsh : decode 0b00010100101010111100 = .ok (.lsh 0xABC) := by rfl
theorem test_decode_rsh : decode 0b00010101000000000000 = .ok (.rsh 0) := by rfl
theorem test_decode_storM : decode 0b00100001000000000110 = .ok (.storM 6) := by rfl
theorem test_decode_refuses_undefined : decode 0b11111111001111111111 = .error (.undefinedOpcode 255) := by rfl

/-! ### One step each, 95_test_vectors.md -/

/-- The word at 0x100 and nothing else. -/
def memWith (m : Word) : Memory := Memory.write ⟨[]⟩ 0x100 m

/-- The frame of the vectors V1 to V7: `left_execute`, MAR = 0x100, MBR = 3333333333, Mem[0x100] = m. -/
def frame (op : Opcode) (ac mq m : Word) : State :=
  { State.reset with mar := 0x100, ir := op, mbr := 0x3333333333, ac := ac, mq := mq, ctrl := .leftExecute, mem := memWith m }

/-- AC, MQ, MBR, PC and CTRL after an operation that goes on. -/
def registersAfter (r : Result) : Option (Word × Word × Word × Addr × Ctrl) :=
  match r with
  | .next t => some (t.ac, t.mq, t.mbr, t.pc, t.ctrl)
  | _ => none

/-- The word at 0x100 after an operation that goes on. -/
def wordAfter (r : Result) : Option Word :=
  match r with
  | .next t => some (t.mem.read 0x100)
  | _ => none

/-- The kind of failure of an operation that fails. -/
def faultOf (r : Result) : Option Fault :=
  match r with
  | .fault k => some k
  | _ => none

theorem test_load : registersAfter (execute (frame 1 0x1111111111 0x2222222222 0xFFFFFFFFFF))
    = some (0xFFFFFFFFFF, 0x2222222222, 0xFFFFFFFFFF, 0, .rightFetch) := by decide
theorem test_load_negative : registersAfter (execute (frame 2 0x1111111111 0x2222222222 0x7FFFFFFFFF))
    = some (0x8000000001, 0x2222222222, 0x7FFFFFFFFF, 0, .rightFetch) := by decide
theorem test_load_absolute_of_the_least : registersAfter (execute (frame 3 0x1111111111 0x2222222222 0x8000000000))
    = some (0x8000000000, 0x2222222222, 0x8000000000, 0, .rightFetch) := by decide
theorem test_load_mq_from_memory : registersAfter (execute (frame 9 0x1111111111 0x2222222222 0xABCDEF0123))
    = some (0x1111111111, 0xABCDEF0123, 0xABCDEF0123, 0, .rightFetch) := by decide
theorem test_load_mq : registersAfter (execute (frame 10 0x1111111111 0x2222222222 5))
    = some (0x2222222222, 0x2222222222, 0x3333333333, 0, .rightFetch) := by decide
theorem test_add_wraps : registersAfter (execute (frame 5 0xFFFFFFFFFF 0 1)) = some (0, 0, 1, 0, .rightFetch) := by decide
theorem test_sub_of_a_negative : registersAfter (execute (frame 6 3 0 0xFFFFFFFFFC))
    = some (7, 0, 0xFFFFFFFFFC, 0, .rightFetch) := by decide
theorem test_add_magnitude : registersAfter (execute (frame 7 0x10 0 0xFFFFFFFFFD))
    = some (0x13, 0, 0xFFFFFFFFFD, 0, .rightFetch) := by decide
theorem test_sub_magnitude : registersAfter (execute (frame 8 2 0 0xFFFFFFFFFB))
    = some (0xFFFFFFFFFD, 0, 0xFFFFFFFFFB, 0, .rightFetch) := by decide
theorem test_mul_of_two_positive : registersAfter (execute (frame 11 0x1111111111 0x123456789A 0x0FEDCBA987))
    = some (0x0121FA00AD, 0x64E3554336, 0x3333333333, 0, .rightFetch) := by decide
theorem test_mul_negative_with_low_half_zero : registersAfter (execute (frame 11 0 0xFFFFF00000 0x100000))
    = some (0xFFFFFFFFFF, 0, 0x3333333333, 0, .rightFetch) := by decide
theorem test_div_of_a_negative : registersAfter (execute (frame 12 0xFFFFFFFFEF 0 5))
    = some (0xFFFFFFFFFE, 0xFFFFFFFFFD, 0x3333333333, 0, .rightFetch) := by decide
theorem test_div_by_zero : faultOf (execute (frame 12 0x11 0x22 0)) = some .arithmeticException := by decide
theorem test_jump_left : registersAfter (execute { frame 13 0 0 0 with mar := 0x020, pc := 7 })
    = some (0, 0, 0x3333333333, 0x020, .leftFetch) := by decide
theorem test_jump_right : registersAfter (execute { frame 14 0 0 0 with mar := 0x020, pc := 8, ctrl := .rightExecute })
    = some (0, 0, 0x3333333333, 0x020, .rightFetchRAM) := by decide
theorem test_jump_plus_left_not_taken : registersAfter (execute { frame 15 0x8000000000 0 0 with mar := 0x020, pc := 7 })
    = some (0x8000000000, 0, 0x3333333333, 7, .rightFetch) := by decide
theorem test_jump_plus_left_taken : registersAfter (execute { frame 15 0x7FFFFFFFFF 0 0 with mar := 0x020, pc := 7 })
    = some (0x7FFFFFFFFF, 0, 0x3333333333, 0x020, .leftFetch) := by decide
theorem test_jump_plus_right_taken :
    registersAfter (execute { frame 16 0 0 0 with mar := 0x020, pc := 8, ctrl := .rightExecute })
    = some (0, 0, 0x3333333333, 0x020, .rightFetchRAM) := by decide
theorem test_jump_plus_right_not_taken :
    registersAfter (execute { frame 16 0x8000000000 0 0 with mar := 0x020, pc := 8, ctrl := .rightExecute })
    = some (0x8000000000, 0, 0x3333333333, 8, .leftFetch) := by decide
theorem test_stor : wordAfter (execute (frame 33 0xABCDEF0123 0 0x5555555555)) = some 0xABCDEF0123
    ∧ registersAfter (execute (frame 33 0xABCDEF0123 0 0)) = some (0xABCDEF0123, 0, 0xABCDEF0123, 0, .rightFetch) := by decide
theorem test_stor_left_address : wordAfter (execute (frame 18 0x0001200034 0 0xAAAAAAAAAA)) = some 0xAA012AAAAA
    ∧ registersAfter (execute (frame 18 1 2 3)) = some (1, 2, 0x3333333333, 0, .rightFetch) := by decide
theorem test_stor_right_address : wordAfter (execute (frame 19 0x0001200034 0 0xAAAAAAAAAA)) = some 0xAAAAAAA034 := by decide
theorem test_lsh_loses_the_sign : registersAfter (execute (frame 20 0x8000000001 0 0))
    = some (2, 0, 0x3333333333, 0, .rightFetch) := by decide
theorem test_rsh_is_logical : registersAfter (execute (frame 21 0xFFFFFFFFF0 0 0))
    = some (0x7FFFFFFFF8, 0, 0x3333333333, 0, .rightFetch) := by decide
theorem test_execute_checks_the_opcode_first : faultOf (execute { frame 0 0 0 0 with mar := 0x400 })
    = some (.invalidInstruction 0) := by decide
theorem test_fetch_in_right_fetch_at_the_end_of_memory :
    registersAfter (fetch { State.reset with ctrl := .rightFetch, pc := 0x3FF, ibr := 0x21006 })
    = some (0, 0, 0, 0x400, .rightExecute) := by decide
theorem test_reset_memory_is_canonical : State.reset.mem.wf = true ∧ State.reset.inv = true := by decide
theorem test_memory_out_of_order_is_not_canonical : (⟨[(2, 1), (1, 1)]⟩ : Memory).wf = false
    ∧ (⟨[(1, 0)]⟩ : Memory).wf = false ∧ (⟨[(1024, 1)]⟩ : Memory).wf = false := by decide
theorem test_step_runs_the_word_placed_for_it :
    registersAfter (step (State.reset.withFetchWord 24 0x0E020)) = some (0, 0, 0x0E02000000, 0x020, .rightFetchRAM) := by decide

/-! ### The text codec and the host port, 95_test_vectors.md E and H -/

theorem test_encode_text : encodeText "stor m ( 0x006 )".toList = .ok 0x21006
    ∧ encodeText "LOAD M(400)".toList = .error .invalidInstructionAddress
    ∧ encodeText "LOAD M(5) x".toList = .error .invalidInstructionString := ⟨rfl, rfl, rfl⟩
theorem test_decode_text : decodeText 0x0F000 = "JUMP+ M(000,0:19)".toList ∧ decodeText 0x04123 = [] := by decide
theorem test_load_ram_line : readMapLine 1 "000   01005 21006".toList = .ok (some (0, 0x0100521006))
    ∧ readMapLine 1 "400 0000000000".toList = .error .invalidNumber := ⟨rfl, rfl⟩

/-! ### Witnesses: values that meet the hypotheses of each obligation together -/

/-- An instruction in flight from a left half. -/
def inLeft : State := frame 1 0x0000000007 0 5

/-- An instruction in flight from a right half, with PC one past its word. -/
def inRight : State := { frame 1 0x0000000007 0 5 with ctrl := .rightExecute, pc := 1 }

/-- PC at an address, in a control state, with a word at that address and no other. -/
def atWord (pc : Addr) (c : Ctrl) (w : Word) : State :=
  { State.reset with pc := pc, ctrl := c, mem := Memory.write ⟨[]⟩ pc.toNat w }

/-- Both execute states; the last address in memory and the first beyond it. -/
theorem test_witness_LoadCopiesMemoryWordIntoMbrAndAc :
    inLeft.ctrl = .leftExecute ∧ inRight.ctrl = .rightExecute ∧ (0x3FF : Addr).toNat < 1024 ∧ 1024 ≤ (0x400 : Addr).toNat := by
  decide

/-- Both execute states; the last address in memory and the first beyond it. -/
theorem test_witness_LoadNegativePutsTwosComplementInAc :
    inLeft.ctrl = .leftExecute ∧ inRight.ctrl = .rightExecute ∧ (0x3FF : Addr).toNat < 1024 ∧ 1024 ≤ (0x400 : Addr).toNat := by
  decide

/-- Both execute states; the last address in memory and the first beyond it. -/
theorem test_witness_LoadMqFromMemoryKeepsAc :
    inLeft.ctrl = .leftExecute ∧ inRight.ctrl = .rightExecute ∧ (0x3FF : Addr).toNat < 1024 ∧ 1024 ≤ (0x400 : Addr).toNat := by
  decide

/-- Both execute states; the last address in memory and the first beyond it. -/
theorem test_witness_AddSumsModuloTwoToTheForty :
    inLeft.ctrl = .leftExecute ∧ inRight.ctrl = .rightExecute ∧ (0x3FF : Addr).toNat < 1024 ∧ 1024 ≤ (0x400 : Addr).toNat := by
  decide

/-- Both execute states; the last address in memory and the first beyond it. -/
theorem test_witness_SubtractDifferenceModuloTwoToTheForty :
    inLeft.ctrl = .leftExecute ∧ inRight.ctrl = .rightExecute ∧ (0x3FF : Addr).toNat < 1024 ∧ 1024 ≤ (0x400 : Addr).toNat := by
  decide

/-- Both execute states; the last address in memory and the first beyond it. -/
theorem test_witness_StoreReplacesTheWholeWord :
    inLeft.ctrl = .leftExecute ∧ inRight.ctrl = .rightExecute ∧ (0x3FF : Addr).toNat < 1024 ∧ 1024 ≤ (0x400 : Addr).toNat := by
  decide

/-- Both execute states, both addresses, and a word on each side of 2^39. -/
theorem test_witness_LoadAbsolutePutsMagnitudeInAc :
    inLeft.ctrl = .leftExecute ∧ inRight.ctrl = .rightExecute ∧ (0x3FF : Addr).toNat < 1024 ∧ 1024 ≤ (0x400 : Addr).toNat
    ∧ ((memWith 0x7FFFFFFFFF).read 0x100).toNat < 2 ^ 39 ∧ ¬((memWith 0x8000000000).read 0x100).toNat < 2 ^ 39 := by
  decide

/-- Both execute states. -/
theorem test_witness_LoadMqCopiesMqIntoAcForEveryAddressField :
    inLeft.ctrl = .leftExecute ∧ inRight.ctrl = .rightExecute := by decide

/-- Both execute states. -/
theorem test_witness_UnusedAddressFieldHasNoEffect :
    inLeft.ctrl = .leftExecute ∧ inRight.ctrl = .rightExecute := by decide

/-- Both execute states and the last address in memory. -/
theorem test_witness_AddAndSubtractMagnitudes :
    inLeft.ctrl = .leftExecute ∧ inRight.ctrl = .rightExecute ∧ (0x3FF : Addr).toNat < 1024 := by decide

/-- Both execute states and the last address in memory. -/
theorem test_witness_MultiplyWritesTheSignedEightyBitProduct :
    inLeft.ctrl = .leftExecute ∧ inRight.ctrl = .rightExecute ∧ (0x3FF : Addr).toNat < 1024 := by decide

/-- Both execute states and the last address in memory. -/
theorem test_witness_ShiftsMoveAcByOneBit :
    inLeft.ctrl = .leftExecute ∧ inRight.ctrl = .rightExecute ∧ (0x3FF : Addr).toNat < 1024 := by decide

/-- Both execute states and the last address in memory. -/
theorem test_witness_JumpsContinueWithTheChosenHalfOfTheTarget :
    inLeft.ctrl = .leftExecute ∧ inRight.ctrl = .rightExecute ∧ (0x3FF : Addr).toNat < 1024 := by decide

/-- Both execute states and the last address in memory. -/
theorem test_witness_PartialStoresReplaceTwelveBitsAtTheirPosition :
    inLeft.ctrl = .leftExecute ∧ inRight.ctrl = .rightExecute ∧ (0x3FF : Addr).toNat < 1024 := by decide

/-- Both execute states and the last address; a sum in the signed range and one outside it. -/
theorem test_witness_AddAndSubtractAgreeWithSignedArithmeticInRange :
    inLeft.ctrl = .leftExecute ∧ inRight.ctrl = .rightExecute ∧ (0x3FF : Addr).toNat < 1024
    ∧ (3 : Word).toInt + (4 : Word).toInt < 2 ^ 39 ∧ ¬(0x7FFFFFFFFF : Word).toInt + (1 : Word).toInt < 2 ^ 39 := by
  decide

/-- One state and address for each of the three clauses. -/
theorem test_witness_DivideWritesQuotientAndRemainderOrFails :
    inLeft.ctrl = .leftExecute ∧ inRight.ctrl = .rightExecute ∧ 1024 ≤ (0x400 : Addr).toNat
    ∧ (0x100 : Addr).toNat < 1024 ∧ (frame 12 17 0 0).mem.read (0x100 : Addr).toNat = 0
    ∧ (frame 12 17 0 5).mem.read (0x100 : Addr).toNat ≠ 0 := by decide

/-- An execute state, an address in memory, a divisor that is not zero. -/
theorem test_witness_DivideTruncatesTowardZero :
    (frame 12 17 0 5).ctrl = .leftExecute ∧ (0x100 : Addr).toNat < 1024 ∧ (frame 12 17 0 5).mem.read (0x100 : Addr).toNat ≠ 0 := by
  decide

/-- Both execute states; an accumulator on each side of 2^39. -/
theorem test_witness_ConditionalJumpsTestTheSignOfAc :
    inLeft.ctrl = .leftExecute ∧ inRight.ctrl = .rightExecute ∧ (frame 15 0x7FFFFFFFFF 0 0).ac.toNat < 2 ^ 39 ∧ ¬(frame 15 0x8000000000 0 0).ac.toNat < 2 ^ 39 := by
  decide

/-- Both execute states, the first address beyond memory; for the conditional jumps an accumulator of zero or more. -/
theorem test_witness_JumpTargetsAreNotValidated :
    inLeft.ctrl = .leftExecute ∧ inRight.ctrl = .rightExecute ∧ 1024 ≤ (0x400 : Addr).toNat ∧ 0 ≤ inLeft.ac.toInt ∧ 0 ≤ inRight.ac.toInt
    ∧ (frame 13 0x8000000000 0 0).ctrl = .leftExecute ∧ Instr.jumpLeft 0x400 ≠ .jumpPlusLeft 0x400
    ∧ Instr.jumpLeft 0x400 ≠ .jumpPlusRight 0x400 := by decide

/-- Both positions, with a kept bit at each edge of the field. -/
theorem test_witness_SpliceReplacesExactlyTheAddressSubfield :
    (19 < 20 ∨ 20 + 12 ≤ 19) ∧ (32 < 20 ∨ 20 + 12 ≤ 32) ∧ (12 < 0 ∨ 0 + 12 ≤ 12) := by decide

/-- Two addresses, and a later execute state with the memory that the store leaves. -/
theorem test_witness_LoadAfterStoreReadsTheLatestWrite :
    (0x100 : Addr).toNat < 1024 ∧ (0x3FF : Addr).toNat < 1024 ∧ inLeft.ctrl = .leftExecute
    ∧ ∃ t, exec (.storM 0x100) inLeft = .next t ∧ ∃ v : State, v.mem = t.mem ∧ (v.ctrl = .leftExecute ∨ v.ctrl = .rightExecute) :=
  ⟨by decide, by decide, rfl, _, rfl, { inLeft with mem := memWith inLeft.ac }, rfl, .inl rfl⟩

/-- The failure at the first address beyond memory. -/
theorem test_witness_InvalidAccessExactlyForMemoryReferencesBeyondMemory :
    faultOf (exec (.loadM 0x400) inLeft) = some (.invalidAccess 0x400) ∧ (Instr.loadM 0x400).opcode.toNat = 1 := by
  decide

/-- A state in each of the five control states. -/
theorem test_witness_CallsOutOfTurnFailAndChangeNothing :
    inLeft.ctrl = .leftExecute ∧ inRight.ctrl = .rightExecute ∧ State.reset.ctrl = .leftFetch
    ∧ (atWord 0 .rightFetch 0).ctrl = .rightFetch ∧ (atWord 0 .rightFetchRAM 0).ctrl = .rightFetchRAM := by
  decide

/-- An undefined opcode in each execute state; in the right one with PC = 1. -/
theorem test_witness_UndefinedOpcodeFailsAndChangesNothing :
    (frame 0 0 0 0).ctrl = .leftExecute ∧ (frame 0 0 0 0).ir.toNat ∉ [1, 2, 3, 5, 6, 7, 8, 9, 10, 11, 12, 13, 14, 15, 16, 18, 19, 20, 21, 33]
    ∧ (atWord 1 .rightExecute 0).ctrl = .rightExecute ∧ (atWord 1 .rightExecute 0).ir.toNat ∉ [1, 2, 3, 5, 6, 7, 8, 9, 10, 11, 12, 13, 14, 15, 16, 18, 19, 20, 21, 33]
    ∧ 1 ≤ (atWord 1 .rightExecute 0).pc.toNat := by decide

/-- A state for each clause: a fetch state, an undefined opcode, an address beyond memory, a zero divisor, a good one. -/
theorem test_witness_ExecuteChecksInOrderAndElseCompletes :
    State.reset.ctrl = .leftFetch ∧ (frame 0 0 0 0).ir.toNat ∉ [1, 2, 3, 5, 6, 7, 8, 9, 10, 11, 12, 13, 14, 15, 16, 18, 19, 20, 21, 33]
    ∧ 1024 ≤ ({ frame 1 0 0 0 with mar := 0x400 } : State).mar.toNat
    ∧ (frame 12 17 0 0).mar.toNat < 1024 ∧ (frame 12 17 0 0).mem.read (frame 12 17 0 0).mar.toNat = 0
    ∧ (frame 12 17 0 5).ir.toNat = 12 ∧ (frame 12 17 0 5).mem.read (frame 12 17 0 5).mar.toNat ≠ 0 := by
  decide

/-- PC at the last word and at the first address beyond memory. -/
theorem test_witness_LeftFetchLoadsTheWordAndBuffersItsRightHalf :
    (atWord 1023 .leftFetch 0).ctrl = .leftFetch ∧ (atWord 1023 .leftFetch 0).pc.toNat < 1024
    ∧ (atWord 1024 .leftFetch 0).ctrl = .leftFetch ∧ 1024 ≤ (atWord 1024 .leftFetch 0).pc.toNat := by decide

/-- PC at 4094 and at 4095. -/
theorem test_witness_RightFetchTakesTheBufferedInstruction :
    (atWord 4094 .rightFetch 0).ctrl = .rightFetch ∧ (atWord 4094 .rightFetch 0).pc.toNat < 4095
    ∧ (atWord 4095 .rightFetch 0).pc.toNat = 4095 := by decide

/-- PC at the last word and at the first address beyond memory. -/
theorem test_witness_RightFetchFromMemoryKeepsIbr :
    (atWord 1023 .rightFetchRAM 0).ctrl = .rightFetchRAM ∧ (atWord 1023 .rightFetchRAM 0).pc.toNat < 1024
    ∧ 1024 ≤ (atWord 1024 .rightFetchRAM 0).pc.toNat := by decide

/-- A fetch that completes and an execute that completes. -/
theorem test_witness_FetchAndExecuteAlternateStrictly :
    (∃ t, fetch State.reset = .next t) ∧ ∃ t, execute (frame 1 0 0 5) = .next t := ⟨⟨_, rfl⟩, ⟨_, rfl⟩⟩

/-- An instruction for each of the four ways a step takes one. -/
theorem test_witness_StepRunsTheDecodedInstruction :
    ((atWord 1023 .leftFetch 0x0100521006).ctrl = .leftFetch
      ∧ decode (BitVec.ofNat 20 (((atWord 1023 .leftFetch 0x0100521006).mem.read 1023).toNat / 2 ^ 20)) = .ok (.loadM 5))
    ∧ decode ({ atWord 4094 .rightFetch 0 with ibr := 0x21006 } : State).ibr = .ok (.storM 6)
    ∧ decode (BitVec.ofNat 20 ((atWord 1023 .rightFetchRAM 0x0100521006).mem.read 1023).toNat) = .ok (.storM 6)
    ∧ decode (BitVec.ofNat 20 ((frame 1 0 0 5).ir.toNat * 4096 + (frame 1 0 0 5).mar.toNat)) = .ok (.loadM 0x100) := ⟨⟨rfl, rfl⟩, rfl, rfl, rfl⟩

/-- IR and MAR of the instruction, in an execute state. -/
theorem test_witness_ExecuteRunsTheInstructionHeldInIrAndMar :
    (frame 1 0 0 5).ctrl = .leftExecute ∧ (frame 1 0 0 5).ir = (Instr.loadM 0x100).opcode
    ∧ (frame 1 0 0 5).mar = (Instr.loadM 0x100).operand := by decide

/-- Instructions that go on: one that stores, one that does not. -/
theorem test_witness_InstructionsWriteOnlyTheirOwnRegisters :
    (∃ t, exec (.storM 0x100) inLeft = .next t) ∧ ∃ t, exec (.loadM 0x100) inRight = .next t := ⟨⟨_, rfl⟩, ⟨_, rfl⟩⟩

/-- Instructions that go on: one that stores, one that does not. -/
theorem test_witness_OnlyTheThreeStoresWriteMemory :
    (∃ t, exec (.storM 0x100) inLeft = .next t) ∧ ∃ t, exec (.loadM 0x100) inRight = .next t := ⟨⟨_, rfl⟩, ⟨_, rfl⟩⟩

/-- Word 1023, whose left instruction stores into word 1023, in each of the three ways. -/
theorem test_witness_StoreIntoOwnWordIsNotSeenByItsRightInstruction :
    (1023 : Addr).toNat < 1024 ∧ (atWord 1023 .leftFetch 0).ctrl = .leftFetch
    ∧ decode (BitVec.ofNat 20 (((atWord 1023 .leftFetch 0x213FF21006).mem.read 1023).toNat / 2 ^ 20)) = .ok (.storM 1023)
    ∧ decode (BitVec.ofNat 20 (((atWord 1023 .leftFetch 0x123FF21006).mem.read 1023).toNat / 2 ^ 20))
      = .ok (.storLeftAddr 1023)
    ∧ decode (BitVec.ofNat 20 (((atWord 1023 .leftFetch 0x133FF21006).mem.read 1023).toNat / 2 ^ 20))
      = .ok (.storRightAddr 1023) := ⟨by decide, rfl, rfl, rfl, rfl⟩

/-- The last word, with LOAD M(5) on the left and STOR M(6) on the right; its left instruction completes. -/
theorem test_witness_AWordIsTwoInstructionsLeftThenRight :
    (atWord 1023 .leftFetch 0x0100521006).ctrl = .leftFetch ∧ (atWord 1023 .leftFetch 0x0100521006).pc.toNat = 1023
    ∧ (Instr.loadM 5).opcode.toNat ∉ [13, 14, 15, 16] ∧ (Instr.storM 6).opcode.toNat ∉ [13, 14, 15, 16]
    ∧ decode (BitVec.ofNat 20 (((atWord 1023 .leftFetch 0x0100521006).mem.read 1023).toNat / 2 ^ 20)) = .ok (.loadM 5)
    ∧ decode (BitVec.ofNat 20 ((atWord 1023 .leftFetch 0x0100521006).mem.read 1023).toNat) = .ok (.storM 6)
    ∧ ∃ t, step (atWord 1023 .leftFetch 0x0100521006) = .next t :=
  ⟨rfl, rfl, by decide, by decide, rfl, rfl, _, rfl⟩

/-- The word of the example at address 0. -/
theorem test_witness_WorkedSequenceCopiesWordFiveToWordSix :
    (atWord 0 .leftFetch 0x0100521006).ctrl = .leftFetch ∧ (atWord 0 .leftFetch 0x0100521006).pc = 0
    ∧ (atWord 0 .leftFetch 0x0100521006).mem.read 0 = 0x0100521006 := by decide

/-- Word 0 holding the jump to itself. -/
theorem test_witness_IdlePointStaysIdleForEver :
    (atWord 0 .leftFetch 0x0D00000000).idleAt 0 = true := by decide

/-- A state with the invariant whose step completes. -/
theorem test_witness_StepKeepsMemoryCanonicalAndPcSequenced :
    (atWord 1023 .leftFetch 0x213FF21006).inv = true ∧ ∃ t, step (atWord 1023 .leftFetch 0x213FF21006) = .next t := ⟨rfl, _, rfl⟩

/-- Requests that patch no register, from reset. -/
theorem test_witness_EveryRunWithoutRegisterPatchesKeepsTheInvariant :
    (∀ r ∈ [Request.fetch, Request.execute, Request.reset], r.patchesRegister = false) ∧ State.reset.inv = true := by
  decide

/-- A canonical memory with a word in it. -/
theorem test_witness_EveryRequestKeepsMemoryCanonical :
    (memWith 5).wf = true := by decide

/-- A failing fetch, a failing execute and a failing step, in states with the invariant. -/
theorem test_witness_EngineFaultsAreTheFiveKinds :
    (atWord 1024 .leftFetch 0).inv = true ∧ faultOf (fetch (atWord 1024 .leftFetch 0)) = some (.invalidFetch (some 1024))
    ∧ (frame 12 17 0 0).inv = true ∧ faultOf (execute (frame 12 17 0 0)) = some .arithmeticException
    ∧ State.reset.inv = true ∧ faultOf (step State.reset) = some (.invalidInstruction 0) := by decide

/-- A fetch from the left half, and one of the right instruction of the last word. -/
theorem test_witness_ProgramCounterNeverWraps :
    State.reset.inv = true ∧ (∃ t, fetch State.reset = .next t)
    ∧ (atWord 1023 .rightFetch 0).inv = true ∧ ∃ t, fetch (atWord 1023 .rightFetch 0) = .next t := ⟨rfl, ⟨_, rfl⟩, rfl, _, rfl⟩

/-- The largest address. -/
theorem test_witness_DecodingAnEncodedInstructionGivesItBack :
    (Instr.loadM 0xFFF).wellFormed = true := by decide

/-- A field that decodes. -/
theorem test_witness_EveryFieldThatDecodesIsItsOwnEncoding :
    decode 0x14ABC = .ok (.lsh 0xABC) := rfl

/-- A request that fails. -/
theorem test_witness_AFailedRequestChangesNothing :
    (perform .execute State.reset).2 = .failed .invalidExecution := by decide

/-- Values that are none of the five names. -/
theorem test_witness_SetCtrlTakesExactlyTheFiveNames :
    (∀ c : Ctrl, HostValue.num 0 ≠ .text c.name) ∧ ∀ c : Ctrl, HostValue.text "LEFT_FETCH".toList ≠ .text c.name := by
  constructor <;> intro c <;> cases c <;> decide

/-- The named attributes of a raw, a hex and a text form, the largest values, and a text of an instruction. -/
theorem test_witness_MemoryAttributeWritesReadBack :
    findAttr "leftopcode".toList = some (.view .left .opcode .raw) ∧ findAttr "RightAddrHex".toList = some (.view .right .addr .hex)
    ∧ findAttr "leftinstructiontext".toList = some (.view .left .instruction .text)
    ∧ 33 < 2 ^ Part.opcode.width ∧ 4095 < 2 ^ Part.addr.width ∧ 1023 < 1024
    ∧ 0x213FF < 2 ^ Part.instruction.width ∧ encodeText "stor m(0x3ff)".toList = .ok (BitVec.ofNat 20 0x213FF) :=
  ⟨rfl, rfl, rfl, by decide, by decide, by decide, by decide, rfl⟩

/-- The free texts of the opcode 33 and of the address 4095 are accepted as those values. -/
theorem test_witness_MemoryAttributeWritesReadBack_free_texts :
    partOfText true (partText true 33) = some 33 ∧ partOfText false (partText false 4095) = some 4095 :=
  ⟨partOfText_partText (by decide), partOfText_partText (mem_partValues_addr.2 (by decide))⟩

/-- A canonical memory, and a state with a zeroed one. -/
theorem test_witness_DumpThenLoadReproducesMemory :
    inLeft.mem.wf = true ∧ State.reset.mem = (zeroAllRAM State.reset).mem := by decide

/-- An instruction with an address and one without. -/
theorem test_witness_AssembledTextOfAnInstructionReadsBack :
    decode 0x213FF = .ok (.storM 0x3FF) ∧ (Instr.storM 0x3FF).assemblable = true
    ∧ decode 0x14000 = .ok (.lsh 0) ∧ (Instr.lsh 0).assemblable = true := ⟨rfl, rfl, rfl, rfl⟩

/-- A text and a template that match. -/
theorem test_witness_AtMostOneTemplateMatches :
    ∃ p ∈ templates, p.matchWhole "JUMP+M(3FF,20:39)".toList = some 0x3FF :=
  ⟨⟨16, "JUMP+ M(".toList, some ",20:39)".toList⟩, by decide, rfl⟩

end Sys2Proof.Tests
end

section
/-! SUPPORT. The fetch from memory as an equation, and the power-on state (10_state.md R40). -/

namespace Sys2Proof.Proofs

open Sys2Proof Sys2Proof.Machine

/-! ### fetch() from an existing address -/

/-- With PC inside memory the shared fetch goes on; `fetchFromMemory_next` is the converse reading. -/
theorem fetchFromMemory_of_lt {s : State} (hp : s.pc.toNat < Config.memWords) (rest : Word → State → State) :
    fetchFromMemory s rest
      = .next (rest (s.mem.read s.pc.toNat) (s.withMbr (s.mem.read s.pc.toNat))) := by
  simp only [fetchFromMemory, (inMemory_iff _).2 hp, if_true]

/-- A fetch in `left_fetch` takes the left instruction of the word at PC and buffers the right one
(40_fetch_execute.md R102). -/
theorem fetch_of_leftFetch {s : State} (hc : s.ctrl = .leftFetch) (hp : s.pc.toNat < Config.memWords) :
    fetch s = .next ((((s.withMbr (s.mem.read s.pc.toNat)).loadInstruction
      (leftField (s.mem.read s.pc.toNat))).withIbr (rightField (s.mem.read s.pc.toNat))).withCtrl .leftExecute) := by
  simp only [fetch, hc]
  exact fetchFromMemory_of_lt hp _

/-! ### Power-on -/

/-- Every word of the power-on memory is zero (10_state.md R29, R40). -/
@[simp] theorem reset_read (a : Nat) : State.reset.mem.read a = 0 := Memory.read_empty a

/-- PC = 0 is an address of memory, so the first fetch cannot fail. -/
theorem reset_pc_inMemory : State.reset.pc.toNat < Config.memWords := by decide

/-- Settles O31: the reset values are those of `State.reset`, and its fetch is the one of `left_fetch` at word 0. -/
theorem powerOnStateIsAllZero : Obligations.PowerOnStateIsAllZero := by
  have hfetch := fetch_of_leftFetch (s := State.reset) rfl reset_pc_inMemory
  exact ⟨rfl, rfl, rfl, rfl, rfl, rfl, rfl, rfl, fun a _ => reset_read a, _, hfetch, rfl, rfl, rfl⟩

end Sys2Proof.Proofs
end

section
/-! SUPPORT. The bits of a word after a field of it is replaced (45_store.md R168), and the memory that an instruction
leaves (20_memory.md R55). -/

namespace Sys2Proof.Proofs

open Sys2Proof Sys2Proof.Machine

/-! ### The bits of a spliced word -/

/-- The number `splice` builds: what stands above the field, then the new field, then what stands below it. -/
theorem splice_eq_wrap40 {n : Nat} (w : Word) (lsb : Nat) (f : BitVec n) :
    splice w lsb f
      = wrap40 (2 ^ lsb * (2 ^ n * (w.toNat / 2 ^ lsb / 2 ^ n) + f.toNat) + w.toNat % 2 ^ lsb) := by
  have hlow : 2 ^ lsb * (w.toNat / 2 ^ lsb) + w.toNat % 2 ^ lsb = w.toNat := Nat.div_add_mod _ _
  have hfield : 2 ^ n * (w.toNat / 2 ^ lsb / 2 ^ n) + w.toNat / 2 ^ lsb % 2 ^ n = w.toNat / 2 ^ lsb :=
    Nat.div_add_mod _ _
  rw [← hfield, Nat.mul_add] at hlow
  rw [splice, selectBits_toNat, Nat.mul_add]
  congr 1
  omega

/-- Every bit of a spliced word: inside the field it is the field's, elsewhere it is the word's. -/
theorem splice_getLsbD {n : Nat} (w : Word) (lsb : Nat) (f : BitVec n) (k : Nat) :
    (splice w lsb f).getLsbD k
      = (decide (k < 40) && if lsb ≤ k ∧ k < lsb + n then f.getLsbD (k - lsb) else w.getLsbD k) := by
  rw [splice_eq_wrap40, wrap40, BitVec.getLsbD_ofNat,
    Nat.testBit_two_pow_mul_add _ (Nat.mod_lt _ (Nat.two_pow_pos lsb)), Nat.testBit_two_pow_mul_add _ f.isLt]
  congr 1
  by_cases hbelow : k < lsb
  · have hout : ¬(lsb ≤ k ∧ k < lsb + n) := by omega
    simp only [hbelow, hout, if_true, if_false, Nat.testBit_mod_two_pow, decide_true, Bool.true_and,
      BitVec.testBit_toNat]
  · by_cases hin : k - lsb < n
    · have hin' : lsb ≤ k ∧ k < lsb + n := by omega
      simp only [hbelow, hin, hin', and_self, if_true, if_false, BitVec.testBit_toNat]
    · have hout : ¬(lsb ≤ k ∧ k < lsb + n) := by omega
      have hk : k - lsb - n + n + lsb = k := by omega
      simp only [hbelow, hin, hout, if_false, Nat.testBit_div_two_pow, hk, BitVec.testBit_toNat]

/-- A splice keeps every bit outside the field (20_memory.md R55, "must preserve every bit"). -/
theorem splice_getLsbD_outside {n : Nat} (w : Word) {lsb k : Nat} (f : BitVec n) (hk : k < lsb ∨ lsb + n ≤ k) :
    (splice w lsb f).getLsbD k = w.getLsbD k := by
  have hout : ¬(lsb ≤ k ∧ k < lsb + n) := by omega
  rw [splice_getLsbD, if_neg hout, Bool.and_eq_right_iff_imp]
  exact fun hbit => decide_eq_true (BitVec.lt_of_getLsbD hbit)

/-- The word written back by a partial store differs from the one it read inside the field only. -/
theorem read_write_splice_outside {n : Nat} (m : Memory) (a : Nat) {lsb k : Nat} (f : BitVec n)
    (hk : k < lsb ∨ lsb + n ≤ k) :
    ((m.write a (splice (m.read a) lsb f)).read a).getLsbD k = (m.read a).getLsbD k := by
  rw [Memory.read_write_same, splice_getLsbD_outside _ f hk]

/-! ### The memory an instruction leaves -/

/-- The memory after a completed instruction: a whole word replaced, 12 bits of one replaced, or nothing changed. -/
def memoryAfter (i : Instr) (s : State) : Memory :=
  match i with
  | .storM x => s.mem.write x.toNat s.ac
  | .storLeftAddr x =>
    s.mem.write x.toNat (splice (s.mem.read x.toNat) 20 (selectBits s.ac storLeftSrcLsb 12))
  | .storRightAddr x => s.mem.write x.toNat (splice (s.mem.read x.toNat) 0 (selectBits s.ac 0 12))
  | _ => s.mem

/-- If the operation goes on, it leaves this memory. -/
def LeavesMemory (r : Result) (m : Memory) : Prop := ∀ t, r = .next t → t.mem = m

theorem leavesMemory_next (t : State) : LeavesMemory (.next t) t.mem := by
  rintro _ ⟨⟩
  rfl

theorem leavesMemory_raise (k : Fault) (m : Memory) : LeavesMemory (raise k) m := nofun

theorem LeavesMemory.executing {r : Result} {m : Memory} (h : LeavesMemory r m) (s : State) :
    LeavesMemory (executing s r) m :=
  fun t ht => h t (executing_next ht).2

theorem LeavesMemory.checkedAddress {r : Result} {m : Memory} (h : LeavesMemory r m) (x : Addr) :
    LeavesMemory (checkedAddress x r) m :=
  fun t ht => h t (checkedAddress_next ht).2

/-- An effect on a memory operand leaves what it leaves when run on the word read. -/
theorem leavesMemory_withOperand {x : Addr} {s : State} {effect : Word → Result} {m : Memory}
    (h : LeavesMemory (effect (s.mem.read x.toNat)) m) : LeavesMemory (withOperand x s effect) m :=
  (h.checkedAddress x).executing s

theorem loadAc_leavesMemory (form : OperandForm) (x : Addr) (s : State) : LeavesMemory (loadAc form x s) s.mem :=
  leavesMemory_withOperand (leavesMemory_next _)

theorem combineAc_leavesMemory (op : Word → Word → Word) (form : OperandForm) (x : Addr) (s : State) :
    LeavesMemory (combineAc op form x s) s.mem :=
  leavesMemory_withOperand (leavesMemory_next _)

theorem execLoadMqM_leavesMemory (x : Addr) (s : State) : LeavesMemory (execLoadMqM x s) s.mem :=
  leavesMemory_withOperand (leavesMemory_next _)

theorem execMulM_leavesMemory (x : Addr) (s : State) : LeavesMemory (execMulM x s) s.mem :=
  leavesMemory_withOperand (leavesMemory_next _)

/-- A zero divisor ends the operation, so nothing is left to show of that case (43_muldiv.md R145). -/
theorem execDivM_leavesMemory (x : Addr) (s : State) : LeavesMemory (execDivM x s) s.mem := by
  refine leavesMemory_withOperand ?_
  split
  case isTrue => exact leavesMemory_raise _ _
  case isFalse => exact leavesMemory_next _

/-- A jump writes PC and CTRL only, so that it keeps memory whether it is taken or not. -/
theorem jumpIfNonNegative_leavesMemory (x : Addr) (half : Ctrl) (s : State) :
    LeavesMemory (jumpIfNonNegative x half s) s.mem := by
  refine LeavesMemory.executing ?_ s
  split
  case isTrue => exact leavesMemory_next _
  case isFalse => exact leavesMemory_next _

theorem patchAddressField_leavesMemory (lsb : Nat) (f x : Addr) (s : State) :
    LeavesMemory (patchAddressField lsb f x s) (s.mem.write x.toNat (splice (s.mem.read x.toNat) lsb f)) :=
  leavesMemory_withOperand (leavesMemory_next _)

/-- What every instruction does to memory when it completes. -/
theorem exec_leavesMemory (i : Instr) (s : State) : LeavesMemory (exec i s) (memoryAfter i s) := by
  cases i with
  | loadM x | loadNegM x | loadAbsM x => exact loadAc_leavesMemory _ x s
  | addM x | subM x | addAbsM x | subAbsM x => exact combineAc_leavesMemory _ _ x s
  | loadMqM x => exact execLoadMqM_leavesMemory x s
  | mulM x => exact execMulM_leavesMemory x s
  | divM x => exact execDivM_leavesMemory x s
  | loadMq x | lsh x | rsh x | jumpLeft x | jumpRight x => exact (leavesMemory_next _).executing s
  | jumpPlusLeft x | jumpPlusRight x => exact jumpIfNonNegative_leavesMemory x _ s
  | storM x => exact ((leavesMemory_next _).checkedAddress x).executing s
  | storLeftAddr x => exact patchAddressField_leavesMemory 20 _ x s
  | storRightAddr x => exact patchAddressField_leavesMemory 0 _ x s

/-! ### Only the three stores write memory -/

/-- Settles O39: by the memory that each instruction leaves (`exec_leavesMemory`), a read of it is a read after at most
one write, and a write of a spliced word keeps the bits outside the field. -/
theorem onlyTheThreeStoresWriteMemory : Obligations.OnlyTheThreeStoresWriteMemory := by
  intro i s t h a
  rw [exec_leavesMemory i s t h]
  cases i with
  | storM x =>
    by_cases ha : a = x.toNat
    · subst ha
      exact .inr (.inl ⟨rfl, rfl, Memory.read_write_same _ _ _⟩)
    · exact .inl ⟨fun hi => ha hi.2, Memory.read_write_other _ _ ha⟩
  | storLeftAddr x =>
    by_cases ha : a = x.toNat
    · subst ha
      exact .inr (.inr (.inl ⟨rfl, rfl, fun k hk => read_write_splice_outside _ _ _ hk⟩))
    · exact .inl ⟨nofun, Memory.read_write_other _ _ ha⟩
  | storRightAddr x =>
    by_cases ha : a = x.toNat
    · subst ha
      exact .inr (.inr (.inr ⟨rfl, rfl, fun k hk => read_write_splice_outside _ _ _ (.inr hk)⟩))
    · exact .inl ⟨nofun, Memory.read_write_other _ _ ha⟩
  | _ => exact .inl ⟨nofun, rfl⟩

end Sys2Proof.Proofs
end

section
/-! SUPPORT. Which fields the decoder accepts: the opcode map read in both directions (30_encoding.md R74, R75). -/

namespace Sys2Proof.Proofs

open Sys2Proof Sys2Proof.Laws

/-! ### The opcode map -/

/-- The inversion of the opcode map: an instruction comes from its own opcode and its own operand only. -/
theorem parts_of_decodeParts {op : Opcode} {x : Addr} {i : Instr} (h : decodeParts op x = .ok i) :
    op = i.opcode ∧ x = i.operand := by
  unfold decodeParts at h
  split at h
  case h_21 => cases h
  all_goals
    cases h
    exact ⟨BitVec.eq_of_toNat_eq ‹_›, rfl⟩

/-- Every instruction has a row in the table of R74. -/
theorem opcodeDefined_opcode (i : Instr) : opcodeDefined i.opcode = true := by
  cases i <;> rfl

/-- The table has a row for every defined opcode, whatever the address (R75). -/
theorem decodeParts_of_opcodeDefined {op : Opcode} (hop : opcodeDefined op = true) (x : Addr) :
    ∃ i, decodeParts op x = .ok i := by
  simp only [opcodeDefined, definedOpcodes, List.contains_iff_mem, List.mem_cons, List.not_mem_nil, or_false] at hop
  rcases hop with rfl | rfl | rfl | rfl | rfl | rfl | rfl | rfl | rfl | rfl | rfl | rfl | rfl | rfl | rfl | rfl | rfl
    | rfl | rfl | rfl
  all_goals exact ⟨_, rfl⟩

/-- The decoder's lookup is on the opcode alone (30_encoding.md R75). -/
theorem exists_decode_iff_opcodeDefined (f : Field) :
    (∃ i, decode f = .ok i) ↔ opcodeDefined (fieldOpcode f) = true := by
  constructor
  · rintro ⟨i, hi⟩
    obtain ⟨hop, -⟩ := parts_of_decodeParts hi
    rw [hop]
    exact opcodeDefined_opcode i
  · exact fun hop => decodeParts_of_opcodeDefined hop (fieldAddr f)

/-- The set of R74 as numbers. -/
theorem opcodeDefined_iff_toNat_mem (op : Opcode) :
    opcodeDefined op = true ↔ op.toNat ∈ definedOpcodes.map BitVec.toNat := by
  rw [opcodeDefined, List.contains_iff_mem, List.mem_map_of_injective fun _ _ => BitVec.eq_of_toNat_eq]

/-! ### Exactly the 20 opcodes decode -/

/-- Settles O53: a field decodes when the table has its opcode (`exists_decode_iff_opcodeDefined`), and its opcode is
the number of the field divided by 4096. -/
theorem exactlyTheTwentyOpcodesDecodeWithEveryAddress :
    Obligations.ExactlyTheTwentyOpcodesDecodeWithEveryAddress := by
  intro f
  rw [exists_decode_iff_opcodeDefined, opcodeDefined_iff_toNat_mem, fieldOpcode_toNat]
  rfl

end Sys2Proof.Proofs
end

section
/-! SUPPORT. Each of `fetch()` and `execute()` as an equation in every case that the control state and PC decide
(40_fetch_execute.md R102 to R107), the words they take apart, and the calls made out of turn. -/

namespace Sys2Proof.Proofs

open Sys2Proof Sys2Proof.Machine

/-! ### Control states and requests -/

/-- The fetch states are exactly three; `Ctrl.isExecute_iff` names the other two. -/
theorem isExecute_eq_false_iff (c : Ctrl) :
    c.isExecute = false ↔ c = .leftFetch ∨ c = .rightFetch ∨ c = .rightFetchRAM := by
  cases c <;> simp

/-- A failed `fetch()` leaves the state it was called in (60_exceptions.md R181). -/
theorem perform_fetch_of_fault {s : State} {k : Fault} (h : fetch s = .fault k) :
    perform .fetch s = (s, .failed k) := by
  simp only [perform, answerStep, h]

/-- A failed `execute()` leaves the state it was called in (60_exceptions.md R181). -/
theorem perform_execute_of_fault {s : State} {k : Fault} (h : execute s = .fault k) :
    perform .execute s = (s, .failed k) := by
  simp only [perform, answerStep, h]

/-! ### Calls out of turn -/

theorem fetch_of_isExecute {s : State} (hc : s.ctrl.isExecute = true) : fetch s = .fault (.invalidFetch none) := by
  rcases (Ctrl.isExecute_iff _).1 hc with hc | hc
  all_goals simp only [fetch, hc, raise_eq]

theorem execute_of_not_isExecute {s : State} (hc : s.ctrl.isExecute = false) :
    execute s = .fault .invalidExecution :=
  executing_of_fetch hc _

/-- Settles O25: each operation checks CTRL before anything else, and a failure keeps the state. -/
theorem callsOutOfTurnFailAndChangeNothing : Obligations.CallsOutOfTurnFailAndChangeNothing := fun s =>
  ⟨fun hc => perform_fetch_of_fault (fetch_of_isExecute ((Ctrl.isExecute_iff _).2 hc)),
    fun hc => perform_execute_of_fault (execute_of_not_isExecute ((isExecute_eq_false_iff s.ctrl).2 hc))⟩

/-! ### The parts of a word as numbers -/

theorem fieldOpcode_leftField (w : Word) : fieldOpcode (leftField w) = BitVec.ofNat 8 (w.toNat / 2 ^ 32) := by
  have hw := word_lt w
  apply BitVec.eq_of_toNat_eq
  rw [Laws.fieldOpcode_toNat, leftField_toNat, BitVec.toNat_ofNat]
  omega

theorem fieldAddr_leftField (w : Word) : fieldAddr (leftField w) = BitVec.ofNat 12 (w.toNat / 2 ^ 20) := by
  apply BitVec.eq_of_toNat_eq
  rw [Laws.fieldAddr_toNat, leftField_toNat, BitVec.toNat_ofNat]
  rfl

theorem rightField_eq_ofNat (w : Word) : rightField w = BitVec.ofNat 20 w.toNat := by
  apply BitVec.eq_of_toNat_eq
  rw [rightField_toNat, BitVec.toNat_ofNat]

theorem fieldOpcode_rightField (w : Word) : fieldOpcode (rightField w) = BitVec.ofNat 8 (w.toNat / 2 ^ 12) := by
  apply BitVec.eq_of_toNat_eq
  rw [Laws.fieldOpcode_toNat, rightField_toNat, BitVec.toNat_ofNat]
  omega

theorem fieldAddr_rightField (w : Word) : fieldAddr (rightField w) = BitVec.ofNat 12 w.toNat := by
  apply BitVec.eq_of_toNat_eq
  rw [Laws.fieldAddr_toNat, rightField_toNat, BitVec.toNat_ofNat]
  omega

/-! ### fetch() in turn -/

/-- With PC beyond memory the shared fetch fails; `fetchFromMemory_of_lt` is the other case. -/
theorem fetchFromMemory_of_ge {s : State} (hp : Config.memWords ≤ s.pc.toNat) (rest : Word → State → State) :
    fetchFromMemory s rest = .fault (.invalidFetch (some s.pc)) :=
  if_neg fun hin => Nat.not_lt.2 hp ((inMemory_iff _).1 hin)

/-- Both fetches from memory fail when PC names no word (40_fetch_execute.md R102, R104). -/
theorem fetch_beyond_memory {s : State} (hc : s.ctrl = .leftFetch ∨ s.ctrl = .rightFetchRAM)
    (hp : Config.memWords ≤ s.pc.toNat) : fetch s = .fault (.invalidFetch (some s.pc)) := by
  rcases hc with hc | hc
  all_goals
    simp only [fetch, hc]
    exact fetchFromMemory_of_ge hp _

/-- A fetch in `right_fetch` takes the buffered instruction and does not read memory (40_fetch_execute.md R103). -/
theorem fetch_of_rightFetch {s : State} (hc : s.ctrl = .rightFetch) (hp : s.pc.toNat ≠ 4095) :
    fetch s = .next (((s.loadInstruction s.ibr).withPc (s.pc + 1)).withCtrl .rightExecute) := by
  simp only [fetch, hc, fetchRight, hp, if_false]

/-- A fetch in `right_fetch_RAM` takes the right instruction of the word at PC (40_fetch_execute.md R104). -/
theorem fetch_of_rightFetchRAM {s : State} (hc : s.ctrl = .rightFetchRAM) (hp : s.pc.toNat < Config.memWords) :
    fetch s = .next ((((s.withMbr (s.mem.read s.pc.toNat)).loadInstruction
      (rightField (s.mem.read s.pc.toNat))).withPc (s.pc + 1)).withCtrl .rightExecute) := by
  simp only [fetch, hc]
  exact fetchFromMemory_of_lt hp _

/-- Settles O28: `fetch_of_leftFetch` is the whole next state, and the parts of its word are quotients. -/
theorem leftFetchLoadsTheWordAndBuffersItsRightHalf : Obligations.LeftFetchLoadsTheWordAndBuffersItsRightHalf := by
  refine fun s hc => ⟨fun hp => ?_, fetch_beyond_memory (.inl hc)⟩
  rw [fetch_of_leftFetch hc hp, ← fieldOpcode_leftField, ← fieldAddr_leftField, ← rightField_eq_ofNat]
  rfl

/-- Settles O30: `fetch_of_rightFetchRAM` is the whole next state, which keeps IBR. -/
theorem rightFetchFromMemoryKeepsIbr : Obligations.RightFetchFromMemoryKeepsIbr := by
  refine fun s hc => ⟨fun hp => ?_, fetch_beyond_memory (.inr hc)⟩
  have hpc : s.pc + 1 = BitVec.ofNat 12 (s.pc.toNat + 1) := by
    rw [BitVec.ofNat_add, BitVec.ofNat_toNat, BitVec.setWidth_eq]
    rfl
  rw [fetch_of_rightFetchRAM hc hp, hpc, ← fieldOpcode_rightField, ← fieldAddr_rightField]
  rfl

/-! ### execute() of an undefined opcode -/

/-- The lookup is on IR alone, and an opcode outside the table fails whatever MAR holds (40_fetch_execute.md R107). -/
theorem execute_of_undefined {s : State} (hc : s.ctrl.isExecute = true) (hop : ¬opcodeDefined s.ir = true) :
    execute s = .fault (.invalidInstruction (failingAddress s)) := by
  rw [execute, executing_of_execute hc]
  split
  case h_1 i hi =>
    have hdef := (exists_decode_iff_opcodeDefined s.inFlight).1 ⟨i, hi⟩
    rw [State.inFlight, Laws.fieldOpcode_makeField] at hdef
    exact absurd hdef hop
  case h_2 => rfl

theorem failingAddress_of_leftExecute {s : State} (hc : s.ctrl = .leftExecute) : failingAddress s = s.pc := by
  simp only [failingAddress, hc]

/-- In `right_execute` PC is already one past the word (60_exceptions.md R186). -/
theorem failingAddress_of_rightExecute {s : State} (hc : s.ctrl = .rightExecute) (hp : 1 ≤ s.pc.toNat) :
    (failingAddress s).toNat = s.pc.toNat - 1 := by
  have hne : ¬s.pc = 0 := fun h0 => by simp [h0] at hp
  simp only [failingAddress, hc, hne, if_false]
  exact BitVec.toNat_sub_of_le hp

/-- Settles O26: the lookup fails before any change, so that both calls leave the state and its CTRL as they were. -/
theorem undefinedOpcodeFailsAndChangesNothing : Obligations.UndefinedOpcodeFailsAndChangesNothing := by
  intro s hctrl hir
  have hc : s.ctrl.isExecute = true := (Ctrl.isExecute_iff _).2 hctrl
  have hop : ¬opcodeDefined s.ir = true := fun hdef => hir ((opcodeDefined_iff_toNat_mem s.ir).1 hdef)
  exact ⟨failingAddress s, perform_execute_of_fault (execute_of_undefined hc hop),
    perform_fetch_of_fault (fetch_of_isExecute hc), failingAddress_of_leftExecute, failingAddress_of_rightExecute⟩

end Sys2Proof.Proofs
end

section
/-! SUPPORT. How an `execute()` that is in turn ends, and the strict alternation with `fetch()`
(40_fetch_execute.md R101). -/

namespace Sys2Proof.Proofs

open Sys2Proof Sys2Proof.Machine

/-! ### An instruction that goes on ends in a fetch state -/

/-- What an effect answers once the guard on CTRL has let it run: it ends in a fetch state, or its failure is not the
guard's own. -/
def EndsExecution : Result → Prop
  | .next t => t.ctrl.isExecute = false
  | .fault k => k ≠ .invalidExecution
  | .refused _ => True

/-- `advance CTRL` leaves the execute states, so every effect that closes with it ends the execution. -/
theorem endsExecution_advance (t : State) : EndsExecution (.next t.advance) := Ctrl.advanced_not_execute t.ctrl

/-- A taken jump goes on in the fetch state of the half it names. -/
theorem endsExecution_jumpTo (x : Addr) {half : Ctrl} (hhalf : half.isExecute = false) (s : State) :
    EndsExecution (jumpTo x half s) := hhalf

theorem EndsExecution.executing {r : Result} (h : EndsExecution r) {s : State} (hc : s.ctrl.isExecute = true) :
    EndsExecution (executing s r) := by
  rwa [executing_of_execute hc]

theorem EndsExecution.checkedAddress {r : Result} (h : EndsExecution r) (x : Addr) :
    EndsExecution (checkedAddress x r) := by
  by_cases hx : x.toNat < Config.memWords
  · rwa [checkedAddress_of_lt hx]
  · rw [checkedAddress_of_ge hx]
    exact nofun

/-- An effect on a memory operand ends the execution when it does so on the word read. -/
theorem endsExecution_withOperand {x : Addr} {s : State} {effect : Word → Result} (hc : s.ctrl.isExecute = true)
    (h : EndsExecution (effect (s.mem.read x.toNat))) : EndsExecution (withOperand x s effect) :=
  (h.checkedAddress x).executing hc

section
variable {s : State} (hc : s.ctrl.isExecute = true)
include hc

theorem loadAc_endsExecution (form : OperandForm) (x : Addr) : EndsExecution (loadAc form x s) :=
  endsExecution_withOperand hc (endsExecution_advance _)

theorem combineAc_endsExecution (op : Word → Word → Word) (form : OperandForm) (x : Addr) :
    EndsExecution (combineAc op form x s) :=
  endsExecution_withOperand hc (endsExecution_advance _)

theorem execLoadMqM_endsExecution (x : Addr) : EndsExecution (execLoadMqM x s) :=
  endsExecution_withOperand hc (endsExecution_advance _)

theorem execMulM_endsExecution (x : Addr) : EndsExecution (execMulM x s) :=
  endsExecution_withOperand hc (endsExecution_advance _)

theorem execDivM_endsExecution (x : Addr) : EndsExecution (execDivM x s) := by
  refine endsExecution_withOperand hc ?_
  split
  case isTrue => exact nofun
  case isFalse => exact endsExecution_advance _

theorem jumpIfNonNegative_endsExecution (x : Addr) {half : Ctrl} (hhalf : half.isExecute = false) :
    EndsExecution (jumpIfNonNegative x half s) := by
  refine EndsExecution.executing ?_ hc
  split
  case isTrue => exact endsExecution_jumpTo x hhalf s
  case isFalse => exact endsExecution_advance s

theorem patchAddressField_endsExecution (lsb : Nat) (f x : Addr) : EndsExecution (patchAddressField lsb f x s) :=
  endsExecution_withOperand hc (endsExecution_advance _)

/-- Every instruction either advances CTRL or jumps to a fetch state. -/
theorem exec_endsExecution (i : Instr) : EndsExecution (exec i s) := by
  cases i with
  | loadM x | loadNegM x | loadAbsM x => exact loadAc_endsExecution hc _ x
  | addM x | subM x | addAbsM x | subAbsM x => exact combineAc_endsExecution hc _ _ x
  | loadMqM x => exact execLoadMqM_endsExecution hc x
  | mulM x => exact execMulM_endsExecution hc x
  | divM x => exact execDivM_endsExecution hc x
  | loadMq x | lsh x | rsh x => exact (endsExecution_advance _).executing hc
  | jumpLeft x | jumpRight x => exact (endsExecution_jumpTo x rfl s).executing hc
  | jumpPlusLeft x | jumpPlusRight x => exact jumpIfNonNegative_endsExecution hc x rfl
  | storM x => exact ((endsExecution_advance _).checkedAddress x).executing hc
  | storLeftAddr x | storRightAddr x => exact patchAddressField_endsExecution hc _ _ x

/-- In turn, `execute()` ends in a fetch state or fails for another reason than its turn. -/
theorem execute_endsExecution : EndsExecution (execute s) := by
  refine EndsExecution.executing ?_ hc
  split
  case h_1 i _ => exact exec_endsExecution hc i
  case h_2 => exact nofun

end

/-! ### Strict alternation -/

/-- `fetch()` fails as out of turn in the execute states only: its other failures carry a PC. -/
theorem fetch_out_of_turn_iff (s : State) : fetch s = .fault (.invalidFetch none) ↔ s.ctrl.isExecute = true := by
  refine ⟨fun h => ?_, fetch_of_isExecute⟩
  obtain ⟨hc, -⟩ | ⟨-, -, hk⟩ | ⟨-, -, hk⟩ := fetch_fault h
  · exact hc
  · cases hk
  · cases hk

/-- `execute()` fails as out of turn in the fetch states only. -/
theorem execute_out_of_turn_iff (s : State) : execute s = .fault .invalidExecution ↔ s.ctrl.isExecute = false := by
  refine ⟨fun h => ?_, execute_of_not_isExecute⟩
  by_contra hc
  have hends := execute_endsExecution (eq_true_of_ne_false hc)
  rw [h] at hends
  exact hends rfl

/-- A `fetch()` that goes on leads from a fetch state to an execute state. -/
theorem fetch_next_isExecute {s t : State} (h : fetch s = .next t) :
    s.ctrl.isExecute = false ∧ t.ctrl.isExecute = true := by
  obtain ⟨hc, -, rfl⟩ | ⟨hc, -, rfl⟩ | ⟨hc, -, rfl⟩ := fetch_next h
  all_goals exact ⟨congrArg Ctrl.isExecute hc, rfl⟩

/-- An `execute()` that goes on leads from an execute state to a fetch state. -/
theorem execute_next_isExecute {s t : State} (h : execute s = .next t) :
    s.ctrl.isExecute = true ∧ t.ctrl.isExecute = false := by
  obtain ⟨hc, -⟩ := execute_next h
  have hends := execute_endsExecution hc
  rw [h] at hends
  exact ⟨hc, hends⟩

/-- Settles O35: with the two kinds of control state named by `Ctrl.isExecute`, each clause is one of the lemmas
above. -/
theorem fetchAndExecuteAlternateStrictly : Obligations.FetchAndExecuteAlternateStrictly := by
  unfold Obligations.FetchAndExecuteAlternateStrictly
  simp only [← Ctrl.isExecute_iff, ← isExecute_eq_false_iff, Bool.not_eq_false, Bool.not_eq_true]
  exact ⟨rfl, fetch_out_of_turn_iff, execute_out_of_turn_iff, fun _ _ => fetch_next_isExecute,
    fun _ _ => execute_next_isExecute⟩

end Sys2Proof.Proofs
end

section
/-! SUPPORT. The two halves of a word that loads and then stores, and the source's worked sequence
(40_fetch_execute.md R117). -/

namespace Sys2Proof.Proofs

open Sys2Proof Sys2Proof.Machine

/-! ### The instruction in flight after a fetch -/

@[simp] theorem inFlight_withCtrl (s : State) (c : Ctrl) : (s.withCtrl c).inFlight = s.inFlight := rfl
@[simp] theorem inFlight_withIbr (s : State) (f : Field) : (s.withIbr f).inFlight = s.inFlight := rfl
@[simp] theorem inFlight_withPc (s : State) (x : Addr) : (s.withPc x).inFlight = s.inFlight := rfl

/-! ### The worked sequence -/

/-- `execute()` of `LOAD M(X)` with an existing word (41_load.md R121). -/
theorem execute_loadM {x : Addr} {s : State} (hc : s.ctrl.isExecute = true) (hd : decode s.inFlight = .ok (.loadM x))
    (hx : x.toNat < Config.memWords) :
    execute s = .next ((s.withMbr (s.mem.read x.toNat)).withAc (s.mem.read x.toNat)).advance :=
  (execute_of_decode hc hd).trans (withOperand_eq hc hx fun m => .next ((s.withMbr m).withAc m).advance)

/-- `execute()` of `STOR M(X)` with an existing word (45_store.md R165). -/
theorem execute_storM {x : Addr} {s : State} (hc : s.ctrl.isExecute = true) (hd : decode s.inFlight = .ok (.storM x))
    (hx : x.toNat < Config.memWords) :
    execute s = .next ((s.withMbr s.ac).withMem (s.mem.write x.toNat s.ac)).advance :=
  ((execute_of_decode hc hd).trans (executing_of_execute hc _)).trans (checkedAddress_of_lt hx _)

/-- A word whose left instruction is `LOAD M(X)`: the fetch and the load, and what they leave for the right half. -/
theorem left_half_loadM {s : State} {x : Addr} {w : Word} (hc : s.ctrl = .leftFetch)
    (hp : s.pc.toNat < Config.memWords) (hw : s.mem.read s.pc.toNat = w) (hd : decode (leftField w) = .ok (.loadM x))
    (hx : x.toNat < Config.memWords) :
    ∃ t u, fetch s = .next t ∧ t.ctrl = .leftExecute ∧ t.ir = fieldOpcode (leftField w) ∧ t.mar = fieldAddr (leftField w)
      ∧ execute t = .next u ∧ u.ctrl = .rightFetch ∧ u.ac = s.mem.read x.toNat
      ∧ u.pc = s.pc ∧ u.ibr = rightField w := by
  have hfetch := fetch_of_leftFetch hc hp
  rw [hw] at hfetch
  exact ⟨_, _, hfetch, rfl, rfl, rfl, execute_loadM rfl (by simpa using hd) hx, rfl, rfl, rfl, rfl⟩

/-- A buffered right instruction `STOR M(X)`: the fetch and the store. -/
theorem right_half_storM {s : State} {x : Addr} (hc : s.ctrl = .rightFetch) (hp : s.pc.toNat ≠ 4095)
    (hd : decode s.ibr = .ok (.storM x)) (hx : x.toNat < Config.memWords) :
    ∃ t u, fetch s = .next t ∧ t.ctrl = .rightExecute ∧ t.ir = fieldOpcode s.ibr ∧ t.mar = fieldAddr s.ibr
      ∧ t.pc = s.pc + 1 ∧ execute t = .next u ∧ u.ctrl = .leftFetch ∧ u.ac = s.ac ∧ u.mem.read x.toNat = s.ac :=
  ⟨_, _, fetch_of_rightFetch hc hp, rfl, rfl, rfl, rfl, execute_storM rfl (by simpa using hd) hx, rfl, rfl,
    Memory.read_write_same _ _ _⟩

/-- Settles O42: the word is LOAD M(5) on the left and STOR M(6) on the right, so that the load puts word 5 in AC and
the store, which comes from IBR, puts AC in word 6. -/
theorem workedSequenceCopiesWordFiveToWordSix : Obligations.WorkedSequenceCopiesWordFiveToWordSix := by
  intro s hc hpc hw
  have hword : s.mem.read s.pc.toNat = 0x0100521006 := by rw [hpc]; exact hw
  obtain ⟨s1, s2, hfetch1, hc1, hir1, hmar1, hexec1, hc2, hac2, hpc2, hibr2⟩ :=
    left_half_loadM (x := 5) hc (by rw [hpc]; decide) hword rfl (by decide)
  rw [hpc] at hpc2
  obtain ⟨s3, s4, hfetch2, hc3, hir3, hmar3, hpc3, hexec2, hc4, hac4, hmem4⟩ :=
    right_half_storM (x := 6) hc2 (by rw [hpc2]; decide) (by rw [hibr2]; rfl) (by decide)
  rw [hibr2] at hir3 hmar3
  rw [hpc2] at hpc3
  exact ⟨s1, s2, s3, s4, hfetch1, hc1, hir1, hmar1, hexec1, hac2, hc2, hfetch2, hc3, hir3, hmar3, hpc3,
    hexec2, hmem4.trans hac2, hmem4.trans hac4.symm, hc4⟩

end Sys2Proof.Proofs
end

section
/-! SUPPORT. The memory operand and `advance CTRL` as equations in an execute state, and the loads from memory
(41_load.md R121 to R124). -/

namespace Sys2Proof.Proofs

open Sys2Proof Sys2Proof.Machine

/-! ### The end of an instruction that does not jump -/

/-- Where `advance CTRL` goes from an execute state (40_fetch_execute.md R108). -/
theorem advanced_of_execute {c : Ctrl} (hc : c = .leftExecute ∨ c = .rightExecute) :
    c.advanced = if c = .leftExecute then .rightFetch else .leftFetch := by
  rcases hc with rfl | rfl
  all_goals rfl

/-! ### The memory operand -/

/-- In turn, an address beyond memory fails before the effect is looked at (40_fetch_execute.md R111). -/
theorem withOperand_of_ge {x : Addr} {s : State} (hc : s.ctrl.isExecute = true) (hx : ¬x.toNat < Config.memWords)
    (effect : Word → Result) : withOperand x s effect = .fault (.invalidAccess x.toNat) := by
  rw [withOperand, executing_of_execute hc, checkedAddress_of_ge hx]

/-- In turn, an effect on a memory operand that closes with `advance CTRL` and keeps CTRL until then either completes
on the word read or fails by the address alone. -/
theorem withOperand_advance {x : Addr} {s : State} (hc : s.ctrl = .leftExecute ∨ s.ctrl = .rightExecute)
    {result : Word → State} (hkeep : ∀ m, (result m).ctrl = s.ctrl) :
    (x.toNat < 1024 → withOperand x s (fun m => .next (result m).advance) = .next
      { result (s.mem.read x.toNat) with ctrl := if s.ctrl = .leftExecute then .rightFetch else .leftFetch })
    ∧ (1024 ≤ x.toNat →
      withOperand x s (fun m => .next (result m).advance) = .fault (.invalidAccess x.toNat)) := by
  have hexec := (Ctrl.isExecute_iff _).2 hc
  refine ⟨fun hx => ?_, fun hx => withOperand_of_ge hexec (Nat.not_lt.2 hx) _⟩
  rw [withOperand_eq hexec hx, State.advance, hkeep, advanced_of_execute hc, State.withCtrl]

/-! ### The operand forms as numbers -/

/-- A word does not change when the number it is made from is reduced first (00_scope.md R13). -/
theorem ofNat_mod_eq_wrap40 (n : Nat) : BitVec.ofNat 40 (n % 2 ^ 40) = wrap40 n := by
  apply BitVec.eq_of_toNat_eq
  simp

theorem neg40_eq_ofNat (w : Word) : neg40 w = BitVec.ofNat 40 ((2 ^ 40 - w.toNat) % 2 ^ 40) :=
  (ofNat_mod_eq_wrap40 _).symm

theorem abs40_eq_ite (w : Word) :
    abs40 w = if w.toNat < 2 ^ 39 then w else BitVec.ofNat 40 (2 ^ 40 - w.toNat) := by
  by_cases hw : w.toNat < 2 ^ 39
  · rw [if_pos hw, abs40, (isNegative_false_iff w).2 hw]
    rfl
  · rw [if_neg hw, abs40, (isNegative_iff w).2 (Nat.not_lt.1 hw)]
    rfl

/-! ### The loads from memory -/

/-- The three loads of AC differ in the operand form only (41_load.md R121 to R123). -/
theorem loadAc_outcomes (form : OperandForm) (x : Addr) {s : State}
    (hc : s.ctrl = .leftExecute ∨ s.ctrl = .rightExecute) :
    (x.toNat < 1024 → loadAc form x s = .next
      { s with mbr := s.mem.read x.toNat, ac := form.value (s.mem.read x.toNat),
               ctrl := if s.ctrl = .leftExecute then .rightFetch else .leftFetch })
    ∧ (1024 ≤ x.toNat → loadAc form x s = .fault (.invalidAccess x.toNat)) :=
  withOperand_advance hc (result := fun m => (s.withMbr m).withAc (form.value m)) fun _ => rfl

/-- Settles O1: the plain operand form is the word as read. -/
theorem loadCopiesMemoryWordIntoMbrAndAc : Obligations.LoadCopiesMemoryWordIntoMbrAndAc :=
  fun x _ hc => loadAc_outcomes .plain x hc

/-- Settles O2: the negated operand form is the number of R122 by `neg40_eq_ofNat`. -/
theorem loadNegativePutsTwosComplementInAc : Obligations.LoadNegativePutsTwosComplementInAc := by
  intro x s hc
  rw [← neg40_eq_ofNat]
  exact loadAc_outcomes .negated x hc

/-- Settles O3: the magnitude has the two cases of R123 by `abs40_eq_ite`. -/
theorem loadAbsolutePutsMagnitudeInAc : Obligations.LoadAbsolutePutsMagnitudeInAc := by
  intro x s hc
  rw [← abs40_eq_ite]
  exact loadAc_outcomes .magnitude x hc

/-- Settles O4: the word read goes to MBR and MQ, and AC is not written. -/
theorem loadMqFromMemoryKeepsAc : Obligations.LoadMqFromMemoryKeepsAc :=
  fun _ s hc => withOperand_advance hc (result := fun m => (s.withMbr m).withMq m) fun _ => rfl

end Sys2Proof.Proofs
end

section
/-! SUPPORT. Add and subtract: the common body as an equation in an execute state, and the sum and the difference of two
words as numbers and in the signed reading (42_addsub.md R130 to R132, R135). -/

namespace Sys2Proof.Proofs

open Sys2Proof Sys2Proof.Machine

/-! ### The common body -/

/-- The add and subtract instructions differ in the operation on AC and the operand form only (42_addsub.md R130). -/
theorem combineAc_outcomes (op : Word → Word → Word) (form : OperandForm) (x : Addr) {s : State}
    (hc : s.ctrl = .leftExecute ∨ s.ctrl = .rightExecute) :
    (x.toNat < 1024 → combineAc op form x s = .next
      { s with mbr := s.mem.read x.toNat, ac := op s.ac (form.value (s.mem.read x.toNat)),
               ctrl := if s.ctrl = .leftExecute then .rightFetch else .leftFetch })
    ∧ (1024 ≤ x.toNat → combineAc op form x s = .fault (.invalidAccess x.toNat)) :=
  withOperand_advance hc (result := fun m => (s.withMbr m).withAc (op s.ac (form.value m))) fun _ => rfl

/-! ### The sum and the difference as numbers -/

theorem add40_eq_ofNat (a m : Word) : add40 a m = BitVec.ofNat 40 ((a.toNat + m.toNat) % 2 ^ 40) :=
  (ofNat_mod_eq_wrap40 _).symm

theorem sub40_eq_ofNat (a m : Word) : sub40 a m = BitVec.ofNat 40 ((a.toNat + 2 ^ 40 - m.toNat) % 2 ^ 40) :=
  (ofNat_mod_eq_wrap40 _).symm

/-- Settles O6: the plain operand form added by `add40`, the number of R131 by `add40_eq_ofNat`. -/
theorem addSumsModuloTwoToTheForty : Obligations.AddSumsModuloTwoToTheForty := by
  intro x s hc
  rw [← add40_eq_ofNat]
  exact combineAc_outcomes add40 .plain x hc

/-- Settles O7: the plain operand form subtracted by `sub40`, the number of R132 by `sub40_eq_ofNat`. -/
theorem subtractDifferenceModuloTwoToTheForty : Obligations.SubtractDifferenceModuloTwoToTheForty := by
  intro x s hc
  rw [← sub40_eq_ofNat]
  exact combineAc_outcomes sub40 .plain x hc

/-! ### The signed reading -/

/-- The model's sum is the library's, which does not distinguish signed from unsigned operands (42_addsub.md R135). -/
theorem add40_eq_add (a m : Word) : add40 a m = a + m := rfl

theorem sub40_eq_sub (a m : Word) : sub40 a m = a - m := by
  have hm := word_lt m
  apply BitVec.eq_of_toNat_eq
  rw [sub40_toNat, BitVec.toNat_sub]
  omega

theorem add40_toInt (a m : Word) : (add40 a m).toInt = (a.toInt + m.toInt).bmod (2 ^ 40) := by
  rw [add40_eq_add, BitVec.toInt_add]

theorem sub40_toInt (a m : Word) : (sub40 a m).toInt = (a.toInt - m.toInt).bmod (2 ^ 40) := by
  rw [sub40_eq_sub, BitVec.toInt_sub]

/-- The balanced residue of an integer is congruent to it, and is the integer itself exactly in the signed range of a
word (42_addsub.md R135). -/
theorem bmod_congruent_and_exact_iff (z : Int) :
    (z.bmod (2 ^ 40) - z) % 2 ^ 40 = 0 ∧ (z.bmod (2 ^ 40) = z ↔ -2 ^ 39 ≤ z ∧ z < 2 ^ 39) := by
  constructor
  · exact Int.emod_eq_zero_of_dvd (by exact_mod_cast Int.dvd_bmod_sub_self)
  · constructor
    · intro hz
      have hlow := Int.le_bmod (x := z) (m := 2 ^ 40) (by decide)
      have hhigh := Int.bmod_lt (x := z) (m := 2 ^ 40) (by decide)
      omega
    · rintro ⟨hlow, hhigh⟩
      exact Int.bmod_eq_of_le (by omega) (by omega)

/-- Settles O9: the accumulator's signed reading is the balanced residue of the exact sum or difference. -/
theorem addAndSubtractAgreeWithSignedArithmeticInRange :
    Obligations.AddAndSubtractAgreeWithSignedArithmeticInRange := by
  intro x s hc hx
  constructor
  · refine ⟨_, (combineAc_outcomes add40 .plain x hc).1 hx, ?_⟩
    rw [add40_toInt]
    exact bmod_congruent_and_exact_iff _
  · refine ⟨_, (combineAc_outcomes sub40 .plain x hc).1 hx, ?_⟩
    rw [sub40_toInt]
    exact bmod_congruent_and_exact_iff _

end Sys2Proof.Proofs
end

section
/-! SUPPORT. Divide: the three outcomes of `DIV M(X)` in an execute state, and its quotient and remainder in the signed
reading (43_muldiv.md R145). -/

namespace Sys2Proof.Proofs

open Sys2Proof Sys2Proof.Machine

/-! ### Sign, magnitude and negation in the signed reading -/

/-- The sign bit of a word is the sign of its two's-complement reading (00_scope.md R13). -/
theorem isNegative_eq_toInt_neg (w : Word) : isNegative w = decide (w.toInt < 0) := by
  have hw := word_lt w
  rw [BitVec.toInt_eq_toNat_cond, isNegative, Config.signWeight, decide_eq_decide]
  split <;> omega

/-- The magnitude of a word is that of its two's-complement reading; 2^39 is the magnitude of the least word. -/
theorem abs40_toNat_eq_natAbs (w : Word) : (abs40 w).toNat = w.toInt.natAbs := by
  have hw := word_lt w
  rw [abs40_toNat, BitVec.toInt_eq_toNat_cond]
  split <;> split <;> omega

theorem wrap40_eq_ofInt (n : Nat) : wrap40 n = BitVec.ofInt 40 n :=
  (BitVec.ofInt_natCast 40 n).symm

/-- The model's negation is the library's. -/
theorem neg40_eq_neg (w : Word) : neg40 w = -w := by
  apply BitVec.eq_of_toNat_eq
  rw [neg40_toNat, BitVec.toNat_neg]

theorem neg40_wrap40_eq_ofInt (n : Nat) : neg40 (wrap40 n) = BitVec.ofInt 40 (-(n : Int)) := by
  rw [neg40_eq_neg, wrap40_eq_ofInt, BitVec.ofInt_neg]

/-- A magnitude with a sign put to it afterwards, as the quotient and the remainder are formed (43_muldiv.md R145). -/
theorem signed_wrap40_eq_ofInt (negative : Bool) (n : Nat) :
    (if negative then neg40 (wrap40 n) else wrap40 n)
      = BitVec.ofInt 40 (if negative then -(n : Int) else (n : Int)) := by
  cases negative with
  | true => exact neg40_wrap40_eq_ofInt n
  | false => exact wrap40_eq_ofInt n

/-! ### The quotient and the remainder -/

theorem divQuotient_eq_ofInt (a d : Word) :
    divQuotient a d = BitVec.ofInt 40
      (if decide (a.toInt < 0) != decide (d.toInt < 0) then -((a.toInt.natAbs / d.toInt.natAbs : Nat) : Int)
        else ((a.toInt.natAbs / d.toInt.natAbs : Nat) : Int)) := by
  rw [divQuotient, signed_wrap40_eq_ofInt, abs40_toNat_eq_natAbs, abs40_toNat_eq_natAbs,
    isNegative_eq_toInt_neg, isNegative_eq_toInt_neg]

theorem divRemainder_eq_ofInt (a d : Word) :
    divRemainder a d = BitVec.ofInt 40
      (if a.toInt < 0 then -((a.toInt.natAbs % d.toInt.natAbs : Nat) : Int)
        else ((a.toInt.natAbs % d.toInt.natAbs : Nat) : Int)) := by
  rw [divRemainder, signed_wrap40_eq_ofInt, abs40_toNat_eq_natAbs, abs40_toNat_eq_natAbs, isNegative_eq_toInt_neg]
  simp only [decide_eq_true_eq]

/-! ### The three outcomes of DIV -/

theorem execDivM_of_ge {x : Addr} {s : State} (hc : s.ctrl.isExecute = true) (hx : ¬x.toNat < Config.memWords) :
    execDivM x s = .fault (.invalidAccess x.toNat) := by
  rw [execDivM, withOperand_of_ge hc hx]

/-- A zero divisor fails before any change (43_muldiv.md R145). -/
theorem execDivM_of_zero {x : Addr} {s : State} (hc : s.ctrl.isExecute = true) (hx : x.toNat < Config.memWords)
    (hd : s.mem.read x.toNat = 0) : execDivM x s = .fault .arithmeticException := by
  rw [execDivM, withOperand_eq hc hx, if_pos hd, raise_eq]

/-- With a divisor that is not zero DIV completes and writes MQ, AC and CTRL only (43_muldiv.md R140, R145). -/
theorem execDivM_of_ne_zero {x : Addr} {s : State} (hc : s.ctrl = .leftExecute ∨ s.ctrl = .rightExecute)
    (hx : x.toNat < Config.memWords) (hd : s.mem.read x.toNat ≠ 0) :
    execDivM x s = .next
      { s with mq := divQuotient s.ac (s.mem.read x.toNat), ac := divRemainder s.ac (s.mem.read x.toNat),
               ctrl := if s.ctrl = .leftExecute then .rightFetch else .leftFetch } := by
  rw [execDivM, withOperand_eq ((Ctrl.isExecute_iff _).2 hc) hx, if_neg hd, ← advanced_of_execute hc]
  rfl

/-- Settles O11: the address check, the divisor check and the completed division, with the words that MQ and AC receive
read as signed numbers by `divQuotient_eq_ofInt` and `divRemainder_eq_ofInt`. -/
theorem divideWritesQuotientAndRemainderOrFails : Obligations.DivideWritesQuotientAndRemainderOrFails := by
  intro x s hc
  have hexec := (Ctrl.isExecute_iff _).2 hc
  refine ⟨fun hx => execDivM_of_ge hexec (Nat.not_lt.2 hx), fun hx hd => execDivM_of_zero hexec hx hd,
    fun hx hd => ⟨_, execDivM_of_ne_zero hc hx hd, divQuotient_eq_ofInt _ _, divRemainder_eq_ofInt _ _, ?_⟩⟩
  exact ⟨rfl, rfl, rfl, rfl, rfl, rfl⟩

end Sys2Proof.Proofs
end

section
/-! SUPPORT. A taken jump as an equation in an execute state (44_jump.md R154), and the fetch that goes on at its
target. -/

namespace Sys2Proof.Proofs

open Sys2Proof Sys2Proof.Machine

/-! ### A taken jump -/

/-- In turn, a taken jump writes PC and CTRL only, whatever the target (44_jump.md R154; D2, log 7). -/
theorem executing_jumpTo {s : State} (hc : s.ctrl = .leftExecute ∨ s.ctrl = .rightExecute) (x : Addr) (half : Ctrl) :
    executing s (jumpTo x half s) = .next { s with pc := x, ctrl := half } := by
  rw [executing_of_execute ((Ctrl.isExecute_iff _).2 hc), jumpTo_eq]
  rfl

theorem exec_jumpLeft {s : State} (hc : s.ctrl = .leftExecute ∨ s.ctrl = .rightExecute) (x : Addr) :
    exec (.jumpLeft x) s = .next { s with pc := x, ctrl := .leftFetch } :=
  executing_jumpTo hc x .leftFetch

theorem exec_jumpRight {s : State} (hc : s.ctrl = .leftExecute ∨ s.ctrl = .rightExecute) (x : Addr) :
    exec (.jumpRight x) s = .next { s with pc := x, ctrl := .rightFetchRAM } :=
  executing_jumpTo hc x .rightFetchRAM

/-! ### The fetch at the target -/

/-- The increment of a PC inside memory does not wrap (10_state.md R34). -/
theorem ofNat_succ_toNat_of_lt {x : Addr} (hx : x.toNat < 1024) :
    (BitVec.ofNat 12 (x.toNat + 1)).toNat = x.toNat + 1 :=
  (BitVec.toNat_ofNat _ _).trans (Nat.mod_eq_of_lt (by omega))

/-- Settles O15: each jump is `executing_jumpTo`, and the state it leaves is one that O28 (left half) or O30 (right half)
fetches from, with PC at the target. -/
theorem jumpsContinueWithTheChosenHalfOfTheTarget : Obligations.JumpsContinueWithTheChosenHalfOfTheTarget := by
  intro x s hc hx
  constructor
  · have hfetch := (leftFetchLoadsTheWordAndBuffersItsRightHalf { s with pc := x, ctrl := .leftFetch } rfl).1 hx
    exact ⟨_, _, exec_jumpLeft hc x, rfl, hfetch, rfl, rfl, rfl, rfl⟩
  · have hfetch := (rightFetchFromMemoryKeepsIbr { s with pc := x, ctrl := .rightFetchRAM } rfl).1 hx
    exact ⟨_, _, exec_jumpRight hc x, rfl, hfetch, rfl, rfl, rfl, rfl, ofNat_succ_toNat_of_lt hx, rfl⟩

end Sys2Proof.Proofs
end

section
/-! SUPPORT. The splice as a number, and the store of the whole accumulator as an equation in an execute state
(45_store.md R165, R168). -/

namespace Sys2Proof.Proofs

open Sys2Proof Sys2Proof.Machine

/-! ### The splice as a number -/

/-- A field that lies inside the word is replaced by another of its width, so the number of R168 needs no reduction. -/
theorem splice_toNat {n : Nat} (w : Word) {lsb : Nat} (f : BitVec n) (hfit : lsb + n ≤ 40) :
    (splice w lsb f).toNat = w.toNat - w.toNat / 2 ^ lsb % 2 ^ n * 2 ^ lsb + f.toNat * 2 ^ lsb := by
  have hsize : 2 ^ (40 - lsb - n) * 2 ^ n * 2 ^ lsb = 2 ^ 40 := by
    rw [← Nat.pow_add, ← Nat.pow_add, Nat.sub_sub, Nat.add_assoc, Nat.add_comm n, Nat.sub_add_cancel hfit]
  have habove : w.toNat / 2 ^ lsb / 2 ^ n < 2 ^ (40 - lsb - n) := by
    rw [Nat.div_lt_iff_lt_mul (Nat.two_pow_pos n), Nat.div_lt_iff_lt_mul (Nat.two_pow_pos lsb), hsize]
    exact w.isLt
  have hlt : 2 ^ lsb * (2 ^ n * (w.toNat / 2 ^ lsb / 2 ^ n) + f.toNat) + w.toNat % 2 ^ lsb < 2 ^ 40 :=
    hsize ▸ Nat.mul_add_lt_mul_of_lt_of_lt (Nat.mul_add_lt_mul_of_lt_of_lt habove f.isLt)
      (Nat.mod_lt _ (Nat.two_pow_pos lsb))
  have hlow : 2 ^ lsb * (w.toNat / 2 ^ lsb) + w.toNat % 2 ^ lsb = w.toNat := Nat.div_add_mod _ _
  have hfield : 2 ^ n * (w.toNat / 2 ^ lsb / 2 ^ n) + w.toNat / 2 ^ lsb % 2 ^ n = w.toNat / 2 ^ lsb :=
    Nat.div_add_mod _ _
  rw [← hfield, Nat.mul_add] at hlow
  rw [splice_eq_wrap40, wrap40, BitVec.toNat_ofNat, Nat.mod_eq_of_lt hlt, Nat.mul_add, Nat.mul_comm _ (2 ^ lsb),
    Nat.mul_comm f.toNat]
  omega

/-- The field that was put in is the field read back (45_store.md R168). -/
theorem selectBits_splice {n : Nat} (w : Word) {lsb : Nat} (f : BitVec n) (hfit : lsb + n ≤ 40) :
    selectBits (splice w lsb f) lsb n = f := by
  apply BitVec.eq_of_getLsbD_eq
  intro k hk
  have hin : lsb ≤ lsb + k ∧ lsb + k < lsb + n := by omega
  have hword : lsb + k < 40 := by omega
  rw [selectBits, BitVec.getLsbD_extractLsb', splice_getLsbD, if_pos hin, Nat.add_sub_cancel_left,
    decide_eq_true hk, decide_eq_true hword, Bool.true_and, Bool.true_and]

/-- Settles O20: both positions leave the field inside the word, and `splice_toNat`, `selectBits_splice` and
`splice_getLsbD_outside` are its three parts for every such field. -/
theorem spliceReplacesExactlyTheAddressSubfield : Obligations.SpliceReplacesExactlyTheAddressSubfield := by
  intro w f lsb hlsb
  have hfit : lsb + 12 ≤ 40 := by omega
  have hback : (splice w lsb f).toNat / 2 ^ lsb % 2 ^ 12 = f.toNat := by
    rw [← selectBits_toNat, selectBits_splice w f hfit]
  exact ⟨splice_toNat w f hfit, hback, fun _ hk => splice_getLsbD_outside w f hk⟩

/-! ### The store of the whole accumulator -/

/-- In turn, `STOR M(X)` writes MBR, CTRL and one word, or fails by the address alone (45_store.md R165). It reads no
operand: the effect is the same whatever word stood at X. -/
theorem execStorM_outcomes (x : Addr) {s : State} (hc : s.ctrl = .leftExecute ∨ s.ctrl = .rightExecute) :
    (x.toNat < 1024 → execStorM x s = .next
      { s with mbr := s.ac, mem := s.mem.write x.toNat s.ac,
               ctrl := if s.ctrl = .leftExecute then .rightFetch else .leftFetch })
    ∧ (1024 ≤ x.toNat → execStorM x s = .fault (.invalidAccess x.toNat)) :=
  withOperand_advance hc (result := fun _ => (s.withMbr s.ac).withMem (s.mem.write x.toNat s.ac)) fun _ => rfl

/-- Settles O18: the memory that `execStorM_outcomes` leaves is one write, so that AC is read back at X and every other
address reads as before. -/
theorem storeReplacesTheWholeWord : Obligations.StoreReplacesTheWholeWord := by
  intro x s hc
  obtain ⟨hinside, hbeyond⟩ := execStorM_outcomes x hc
  exact ⟨fun hx => ⟨_, hinside hx, rfl, Memory.read_write_same _ _ _, fun _ ha => Memory.read_write_other _ _ ha⟩,
    hbeyond⟩

end Sys2Proof.Proofs
end

section
/-! SUPPORT. The shifts of AC by one bit as equations in an execute state (46_shift.md R174 to R176). -/

namespace Sys2Proof.Proofs

open Sys2Proof Sys2Proof.Machine

/-- In turn, an effect without a memory operand that closes with `advance CTRL` and keeps CTRL until then completes
(46_shift.md R174). -/
theorem executing_advance {s t : State} (hc : s.ctrl = .leftExecute ∨ s.ctrl = .rightExecute)
    (hkeep : t.ctrl = s.ctrl) :
    executing s (.next t.advance)
      = .next { t with ctrl := if s.ctrl = .leftExecute then .rightFetch else .leftFetch } := by
  rw [executing_of_execute ((Ctrl.isExecute_iff _).2 hc), State.advance, hkeep, advanced_of_execute hc, State.withCtrl]

theorem shiftLeft40_eq_ofNat (a : Word) : shiftLeft40 a = BitVec.ofNat 40 (a.toNat * 2 % 2 ^ 40) :=
  (ofNat_mod_eq_wrap40 _).symm

/-- `LSH` doubles AC whatever its address field (46_shift.md R175; D19, log 15). -/
theorem exec_lsh {s : State} (hc : s.ctrl = .leftExecute ∨ s.ctrl = .rightExecute) (x : Addr) :
    exec (.lsh x) s = .next
      { s with ac := BitVec.ofNat 40 (s.ac.toNat * 2 % 2 ^ 40),
               ctrl := if s.ctrl = .leftExecute then .rightFetch else .leftFetch } := by
  rw [← shiftLeft40_eq_ofNat]
  exact executing_advance hc (t := s.withAc (shiftLeft40 s.ac)) rfl

/-- `RSH` halves the unsigned value of AC whatever its address field (46_shift.md R176; D19, log 15). -/
theorem exec_rsh {s : State} (hc : s.ctrl = .leftExecute ∨ s.ctrl = .rightExecute) (x : Addr) :
    exec (.rsh x) s = .next
      { s with ac := BitVec.ofNat 40 (s.ac.toNat / 2),
               ctrl := if s.ctrl = .leftExecute then .rightFetch else .leftFetch } :=
  executing_advance hc (t := s.withAc (shiftRight40 s.ac)) rfl

/-- Settles O22: `exec_lsh` and `exec_rsh` hold for every address field, so for those below 1024. -/
theorem shiftsMoveAcByOneBit : Obligations.ShiftsMoveAcByOneBit :=
  fun x _ hc _ => ⟨exec_lsh hc x, exec_rsh hc x⟩

end Sys2Proof.Proofs
end

section
/-! SUPPORT. What a failed answer says of the operation behind it, and that every request which fails is discarded whole
(60_exceptions.md R181). -/

namespace Sys2Proof.Proofs

open Sys2Proof Sys2Proof.Machine

section Answers

variable {s : State} {k : Fault}

/-- A stepping operation answers a failure exactly when it faults; a refusal is another answer. -/
theorem answerStep_failed_iff {r : Result} : (answerStep s r).2 = .failed k ↔ r = .fault k := by
  cases r <;> simp [answerStep]

/-- An operation that writes answers a failure exactly when it ends in an error. -/
theorem answerWrite_failed_iff {r : Except Fault State} : (answerWrite s r).2 = .failed k ↔ r = .error k := by
  cases r <;> simp [answerWrite]

/-- A stepping operation that faults drops whatever it had done on its way to the fault (60_exceptions.md R181). -/
theorem answerStep_state_of_failed {r : Result} (h : (answerStep s r).2 = .failed k) : (answerStep s r).1 = s := by
  rw [answerStep_failed_iff.1 h, answerStep]

/-- An operation that writes, and fails, has written nothing (60_exceptions.md R181). -/
theorem answerWrite_state_of_failed {r : Except Fault State} (h : (answerWrite s r).2 = .failed k) :
    (answerWrite s r).1 = s := by
  rw [answerWrite_failed_iff.1 h, answerWrite]

/-- An operation that reads keeps the state whether it succeeds or fails (80_host_interface.md R236). -/
theorem answerRead_state (s : State) (r : Except Fault HostValue) : (answerRead s r).1 = s := by
  cases r <;> rfl

end Answers

/-- Settles O55: the requests that can fail answer through `answerStep`, `answerWrite` or `answerRead`; the resets
always succeed, and the two dumps leave the state as it is. -/
theorem aFailedRequestChangesNothing : Obligations.AFailedRequestChangesNothing := by
  intro r s k h
  cases r with
  | fetch | execute => exact answerStep_state_of_failed h
  | setRAM | setCPU | loadRAM => exact answerWrite_state_of_failed h
  | getRAM | getCPU => exact answerRead_state s _
  | reset | zeroAllRegisters | zeroAllRAM => nomatch h
  | dumpRAM | dumpCPU => rfl

end Sys2Proof.Proofs
end

section
/-! SUPPORT. The decoder and the encoder as inverses of each other (30_encoding.md R70 to R75). -/

namespace Sys2Proof.Proofs

open Sys2Proof Sys2Proof.Machine

/-- The opcode map has a row for every instruction, and answers that instruction. -/
theorem decodeParts_opcode_operand (i : Instr) : decodeParts i.opcode i.operand = .ok i := by
  cases i <;> rfl

theorem decode_encode (i : Instr) : decode (encode i) = .ok i := by
  rw [decode, encode, Laws.fieldOpcode_makeField, Laws.fieldAddr_makeField, decodeParts_opcode_operand]

/-- Settles O51: the fields of the encoding are the instruction's own, and the decoder's row for them is the
instruction. -/
theorem decodingAnEncodedInstructionGivesItBack : Obligations.DecodingAnEncodedInstructionGivesItBack :=
  fun i _ => ⟨decode_encode i, Laws.makeField_toNat i.opcode i.operand⟩

/-- A field that decodes holds the instruction's opcode and operand. -/
theorem parts_of_decode {f : Field} {i : Instr} (h : decode f = .ok i) :
    fieldOpcode f = i.opcode ∧ fieldAddr f = i.operand :=
  parts_of_decodeParts h

/-- Settles O52: by the inversion of the opcode map both parts of the field are the instruction's, and a field is its two
parts. -/
theorem everyFieldThatDecodesIsItsOwnEncoding : Obligations.EveryFieldThatDecodesIsItsOwnEncoding := by
  intro f i hi
  obtain ⟨hop, haddr⟩ := parts_of_decode hi
  rw [encode, ← hop, ← haddr, Laws.makeField_parts]

/-- Settles O54: ten closed fields, each looked up in the opcode map. -/
theorem workedEncodingsDecode : Obligations.WorkedEncodingsDecode :=
  ⟨rfl, rfl, rfl, rfl, rfl, rfl, rfl, rfl, rfl, rfl⟩

end Sys2Proof.Proofs
end

section
/-! SUPPORT. The instruction that `execute()` and a step take, and the fetch of the buffered one (40_fetch_execute.md R101 to
R109). -/

namespace Sys2Proof.Proofs

open Sys2Proof Sys2Proof.Machine

/-! ### execute() and the instruction in flight -/

/-- Settles O37: IR and MAR together are the encoding of the instruction, which decodes to it. -/
theorem executeRunsTheInstructionHeldInIrAndMar : Obligations.ExecuteRunsTheInstructionHeldInIrAndMar := by
  intro i s hc hir hmar
  have hflight : s.inFlight = encode i := by rw [State.inFlight, hir, hmar, encode]
  exact execute_of_decode ((Ctrl.isExecute_iff _).2 hc) (hflight ▸ decode_encode i)

/-! ### The instruction a step takes -/

/-- The left field of a word as a number (30_encoding.md R71). -/
theorem leftField_eq_ofNat (w : Word) : leftField w = BitVec.ofNat 20 (w.toNat / 2 ^ 20) := by
  have hw := word_lt w
  apply BitVec.eq_of_toNat_eq
  rw [leftField_toNat, BitVec.toNat_ofNat]
  omega

/-- The instruction in flight as a number (10_state.md R25, R26). -/
theorem inFlight_eq_ofNat (s : State) : s.inFlight = BitVec.ofNat 20 (s.ir.toNat * 4096 + s.mar.toNat) := by
  apply BitVec.eq_of_toNat_eq
  rw [BitVec.toNat_ofNat, State.inFlight, Laws.makeField_toNat]
  have hir := s.ir.isLt
  have hmar := s.mar.isLt
  omega

/-- A step whose fetch leaves an instruction in flight runs that instruction on the state the fetch leaves. -/
theorem step_of_fetch_decode {s t : State} {i : Instr} (hfetch : fetch s = .next t) (hd : decode t.inFlight = .ok i) :
    step s = exec i t := by
  obtain ⟨hs, ht⟩ := fetch_next_isExecute hfetch
  rw [step_of_fetch hs, hfetch]
  exact execute_of_decode ht hd

theorem step_of_leftFetch {s : State} {i : Instr} (hc : s.ctrl = .leftFetch) (hp : s.pc.toNat < Config.memWords)
    (hd : decode (leftField (s.mem.read s.pc.toNat)) = .ok i) :
    step s = exec i
      { s with mbr := s.mem.read s.pc.toNat, ir := i.opcode, mar := i.operand,
               ibr := rightField (s.mem.read s.pc.toNat), ctrl := .leftExecute } := by
  obtain ⟨hop, haddr⟩ := parts_of_decode hd
  rw [step_of_fetch_decode (fetch_of_leftFetch hc hp) (by simpa using hd), ← hop, ← haddr]
  rfl

theorem step_of_rightFetch {s : State} {i : Instr} (hc : s.ctrl = .rightFetch) (hp : s.pc.toNat ≠ 4095)
    (hd : decode s.ibr = .ok i) :
    step s = exec i { s with ir := i.opcode, mar := i.operand, pc := s.pc + 1, ctrl := .rightExecute } := by
  obtain ⟨hop, haddr⟩ := parts_of_decode hd
  rw [step_of_fetch_decode (fetch_of_rightFetch hc hp) (by simpa using hd), ← hop, ← haddr]
  rfl

theorem step_of_rightFetchRAM {s : State} {i : Instr} (hc : s.ctrl = .rightFetchRAM) (hp : s.pc.toNat < Config.memWords)
    (hd : decode (rightField (s.mem.read s.pc.toNat)) = .ok i) :
    step s = exec i
      { s with mbr := s.mem.read s.pc.toNat, ir := i.opcode, mar := i.operand, pc := s.pc + 1,
               ctrl := .rightExecute } := by
  obtain ⟨hop, haddr⟩ := parts_of_decode hd
  rw [step_of_fetch_decode (fetch_of_rightFetchRAM hc hp) (by simpa using hd), ← hop, ← haddr]
  rfl

/-- Settles O36: one lemma for each fetch state, and `execute_of_decode` for an instruction already in flight. -/
theorem stepRunsTheDecodedInstruction : Obligations.StepRunsTheDecodedInstruction := by
  intro s i
  rw [← leftField_eq_ofNat, ← rightField_eq_ofNat, ← inFlight_eq_ofNat]
  refine ⟨step_of_leftFetch, fun hc hp => step_of_rightFetch hc (Nat.ne_of_lt hp), step_of_rightFetchRAM,
    fun hc hd => ?_⟩
  have hexec := (Ctrl.isExecute_iff _).2 hc
  rw [step_of_execute hexec, execute_of_decode hexec hd]

/-! ### fetch() in right_fetch -/

/-- The increment of PC in numbers. -/
theorem pc_add_one_eq_ofNat (x : Addr) : x + 1 = BitVec.ofNat 12 (x.toNat + 1) := by
  rw [BitVec.ofNat_add, BitVec.ofNat_toNat, BitVec.setWidth_eq]
  rfl

theorem fieldOpcode_eq_ofNat (f : Field) : fieldOpcode f = BitVec.ofNat 8 (f.toNat / 2 ^ 12) := by
  apply BitVec.eq_of_toNat_eq
  rw [Laws.fieldOpcode_toNat, BitVec.toNat_ofNat]
  have hf := f.isLt
  omega

theorem fieldAddr_eq_ofNat (f : Field) : fieldAddr f = BitVec.ofNat 12 f.toNat := by
  apply BitVec.eq_of_toNat_eq
  rw [Laws.fieldAddr_toNat, BitVec.toNat_ofNat]

/-- At PC = 4095 there is no next address, and the fetch of the buffered instruction fails (D11, log 14). -/
theorem fetch_of_rightFetch_at_4095 {s : State} (hc : s.ctrl = .rightFetch) (hp : s.pc.toNat = 4095) :
    fetch s = .fault (.invalidData s.pc) := by
  simp only [fetch, hc, fetchRight, hp, if_true, raise_eq]

/-- Settles O29: `fetch_of_rightFetch` is the whole next state, and the parts of IBR are quotients. -/
theorem rightFetchTakesTheBufferedInstruction : Obligations.RightFetchTakesTheBufferedInstruction := by
  refine fun s hc => ⟨fun hp => ?_, fun hp => ?_⟩
  · rw [fetch_of_rightFetch hc (Nat.ne_of_lt hp), ← fieldOpcode_eq_ofNat, ← fieldAddr_eq_ofNat, ← pc_add_one_eq_ofNat]
    rfl
  · have hpc : s.pc = 4095 := BitVec.eq_of_toNat_eq hp
    rw [fetch_of_rightFetch_at_4095 hc hp, hpc]

end Sys2Proof.Proofs
end

section
/-! SUPPORT. The three resets (70_reset_and_hazards.md R210 to R212). -/

namespace Sys2Proof.Proofs

open Sys2Proof Sys2Proof.Machine

/-- Settles O32: `reset()` is `resetCall`, and the fetch after it is the one of `left_fetch` at word 0. -/
theorem resetCallZeroesOnlyPcAndCtrl : Obligations.ResetCallZeroesOnlyPcAndCtrl := by
  intro s
  have hfetch := fetch_of_leftFetch (s := resetCall s) rfl reset_pc_inMemory
  exact ⟨rfl, _, hfetch, rfl, fieldOpcode_leftField _, fieldAddr_leftField _⟩

/-- Settles O33: the zeroed memory is the power-on memory, every word of which reads 0. -/
theorem zeroAllRamKeepsRegisters : Obligations.ZeroAllRamKeepsRegisters :=
  fun s => ⟨zeroAllRAM s, rfl, rfl, Memory.read_empty⟩

/-- Settles O34: every register and CTRL get their power-on value (D10), and memory is not written. -/
theorem zeroAllRegistersKeepsMemory : Obligations.ZeroAllRegistersKeepsMemory := fun _ => rfl

end Sys2Proof.Proofs
end

section
/-! SUPPORT. When an instruction completes and all the ways it can fail (40_fetch_execute.md R111; 60_exceptions.md R185 to
R192). -/

namespace Sys2Proof.Proofs

open Sys2Proof Sys2Proof.Machine

/-! ### Multiply and the partial stores in turn -/

/-- In turn, `MUL M(X)` writes AC, MQ and CTRL only, or fails by the address alone (43_muldiv.md R141; MBR by D3, log
8). -/
theorem execMulM_outcomes (x : Addr) {s : State} (hc : s.ctrl = .leftExecute ∨ s.ctrl = .rightExecute) :
    (x.toNat < 1024 → execMulM x s = .next
      { s with ac := (mul80 s.mq (s.mem.read x.toNat)).hi, mq := (mul80 s.mq (s.mem.read x.toNat)).lo,
               ctrl := if s.ctrl = .leftExecute then .rightFetch else .leftFetch })
    ∧ (1024 ≤ x.toNat → execMulM x s = .fault (.invalidAccess x.toNat)) :=
  withOperand_advance hc (result := fun m => (s.withAc (mul80 s.mq m).hi).withMq (mul80 s.mq m).lo) fun _ => rfl

/-- In turn, a partial store writes one word and CTRL only, or fails by the address alone (45_store.md R166, R167; MBR by
D3, log 8). -/
theorem patchAddressField_outcomes (lsb : Nat) (f x : Addr) {s : State}
    (hc : s.ctrl = .leftExecute ∨ s.ctrl = .rightExecute) :
    (x.toNat < 1024 → patchAddressField lsb f x s = .next
      { s with mem := s.mem.write x.toNat (splice (s.mem.read x.toNat) lsb f),
               ctrl := if s.ctrl = .leftExecute then .rightFetch else .leftFetch })
    ∧ (1024 ≤ x.toNat → patchAddressField lsb f x s = .fault (.invalidAccess x.toNat)) :=
  withOperand_advance hc (result := fun w => s.withMem (s.mem.write x.toNat (splice w lsb f))) fun _ => rfl

/-! ### The conditional jumps in turn -/

/-- In turn, a conditional jump completes: taken it writes PC and CTRL, not taken CTRL only (44_jump.md R157, R158; D1,
D2, logs 6, 7). -/
theorem jumpIfNonNegative_eq {s : State} (hc : s.ctrl = .leftExecute ∨ s.ctrl = .rightExecute) (x : Addr)
    (half : Ctrl) : jumpIfNonNegative x half s = .next
      (if s.ac.toNat < 2 ^ 39 then { s with pc := x, ctrl := half }
        else { s with ctrl := if s.ctrl = .leftExecute then .rightFetch else .leftFetch }) := by
  rw [jumpIfNonNegative, executing_of_execute ((Ctrl.isExecute_iff _).2 hc), nonNegative]
  by_cases hac : s.ac.toNat < 2 ^ 39
  · rw [(isNegative_false_iff _).2 hac, if_pos hac]
    rfl
  · rw [(isNegative_iff _).2 (Nat.not_lt.1 hac), if_neg hac, ← advanced_of_execute hc]
    rfl

/-! ### The checks of an instruction -/

/-- Every meaning checks CTRL first (60_exceptions.md R185, R192). -/
theorem exec_of_not_isExecute (i : Instr) {s : State} (hc : s.ctrl.isExecute = false) :
    exec i s = .fault .invalidExecution := by
  cases i <;> exact executing_of_fetch hc _

section
variable {i : Instr} {s : State} (hc : s.ctrl = .leftExecute ∨ s.ctrl = .rightExecute)
include hc

/-- In turn, a memory-referencing instruction checks its address next (40_fetch_execute.md R111). -/
theorem exec_of_beyond_memory (hi : i.addrUse = .data) (hx : 1024 ≤ i.operand.toNat) :
    exec i s = .fault (.invalidAccess i.operand.toNat) := by
  cases i with
  | loadM x | loadNegM x | loadAbsM x => exact (loadAc_outcomes _ x hc).2 hx
  | addM x | subM x | addAbsM x | subAbsM x => exact (combineAc_outcomes _ _ x hc).2 hx
  | loadMqM x => exact (loadMqFromMemoryKeepsAc x s hc).2 hx
  | mulM x => exact (execMulM_outcomes x hc).2 hx
  | divM x => exact execDivM_of_ge ((Ctrl.isExecute_iff _).2 hc) (Nat.not_lt.2 hx)
  | storM x => exact (execStorM_outcomes x hc).2 hx
  | storLeftAddr x | storRightAddr x => exact (patchAddressField_outcomes _ _ x hc).2 hx
  | loadMq | jumpLeft | jumpRight | jumpPlusLeft | jumpPlusRight | lsh | rsh => nomatch hi

/-- When no check fails, the instruction completes. -/
theorem exec_completes (hx : i.addrUse = .data → i.operand.toNat < 1024)
    (hd : i = .divM i.operand → s.mem.read i.operand.toNat ≠ 0) : ∃ t, exec i s = .next t := by
  cases i with
  | loadM x | loadNegM x | loadAbsM x => exact ⟨_, (loadAc_outcomes _ x hc).1 (hx rfl)⟩
  | addM x | subM x | addAbsM x | subAbsM x => exact ⟨_, (combineAc_outcomes _ _ x hc).1 (hx rfl)⟩
  | loadMqM x => exact ⟨_, (loadMqFromMemoryKeepsAc x s hc).1 (hx rfl)⟩
  | mulM x => exact ⟨_, (execMulM_outcomes x hc).1 (hx rfl)⟩
  | divM x => exact ⟨_, execDivM_of_ne_zero hc (hx rfl) (hd rfl)⟩
  | storM x => exact ⟨_, (execStorM_outcomes x hc).1 (hx rfl)⟩
  | storLeftAddr x | storRightAddr x => exact ⟨_, (patchAddressField_outcomes _ _ x hc).1 (hx rfl)⟩
  | jumpPlusLeft x | jumpPlusRight x => exact ⟨_, jumpIfNonNegative_eq hc x _⟩
  | loadMq | lsh | rsh | jumpLeft | jumpRight =>
    exact ⟨_, executing_of_execute ((Ctrl.isExecute_iff _).2 hc) _⟩

end

/-! ### All the ways an instruction can fail -/

/-- The failures of an instruction, each with the check behind it (60_exceptions.md R185, R187, R188). -/
inductive ExecFails (i : Instr) (s : State) : Fault → Prop where
  | outOfTurn (hc : s.ctrl.isExecute = false) : ExecFails i s .invalidExecution
  | beyondMemory (hc : s.ctrl = .leftExecute ∨ s.ctrl = .rightExecute) (hi : i.addrUse = .data)
    (hx : 1024 ≤ i.operand.toNat) : ExecFails i s (.invalidAccess i.operand.toNat)
  | zeroDivisor (hc : s.ctrl = .leftExecute ∨ s.ctrl = .rightExecute) (hi : i = .divM i.operand)
    (hx : i.operand.toNat < 1024) (hd : s.mem.read i.operand.toNat = 0) : ExecFails i s .arithmeticException

/-- An instruction fails for every one of these reasons. -/
theorem ExecFails.exec_eq {i : Instr} {s : State} {k : Fault} (h : ExecFails i s k) : exec i s = .fault k := by
  cases h with
  | outOfTurn hc => exact exec_of_not_isExecute i hc
  | beyondMemory hc hi hx => exact exec_of_beyond_memory hc hi hx
  | zeroDivisor hc hi hx hd =>
    rw [hi]
    exact execDivM_of_zero ((Ctrl.isExecute_iff _).2 hc) hx hd

/-- An instruction completes or one of its checks fails. -/
theorem exec_completes_or_fails (i : Instr) (s : State) : (∃ t, exec i s = .next t) ∨ ∃ k, ExecFails i s k := by
  by_cases hc : s.ctrl.isExecute = true
  · have hc := (Ctrl.isExecute_iff _).1 hc
    by_cases hx : i.addrUse = .data ∧ 1024 ≤ i.operand.toNat
    · exact .inr ⟨_, .beyondMemory hc hx.1 hx.2⟩
    · have hx (hi : i.addrUse = .data) : i.operand.toNat < 1024 := Nat.not_le.1 fun hge => hx ⟨hi, hge⟩
      by_cases hd : i = .divM i.operand ∧ s.mem.read i.operand.toNat = 0
      · exact .inr ⟨_, .zeroDivisor hc hd.1 (hx (by rw [hd.1]; rfl)) hd.2⟩
      · exact .inl (exec_completes hc hx fun hi hz => hd ⟨hi, hz⟩)
  · exact .inr ⟨_, .outOfTurn (eq_false_of_ne_true hc)⟩

/-- An instruction fails for no other reason. -/
theorem exec_fault {i : Instr} {s : State} {k : Fault} (h : exec i s = .fault k) : ExecFails i s k := by
  rcases exec_completes_or_fails i s with ⟨t, ht⟩ | ⟨k', hk⟩
  · nomatch h.symm.trans ht
  · cases h.symm.trans hk.exec_eq
    exact hk

/-- Every instruction is modelled. -/
theorem exec_not_refused (i : Instr) (s : State) (k : Refusal) : exec i s ≠ .refused k := by
  intro h
  rcases exec_completes_or_fails i s with ⟨t, ht⟩ | ⟨k', hk⟩
  · nomatch h.symm.trans ht
  · nomatch h.symm.trans hk.exec_eq

/-- An instruction that completes has met none of these reasons. -/
theorem not_execFails_of_next {i : Instr} {s t : State} (h : exec i s = .next t) (k : Fault) : ¬ExecFails i s k :=
  fun hk => nomatch h.symm.trans hk.exec_eq

/-- A completed instruction ran in turn. -/
theorem ctrl_of_exec_next {i : Instr} {s t : State} (h : exec i s = .next t) :
    s.ctrl = .leftExecute ∨ s.ctrl = .rightExecute := by
  rw [← Ctrl.isExecute_iff]
  by_contra hc
  exact not_execFails_of_next h _ (.outOfTurn (eq_false_of_ne_true hc))

/-- A completed memory-referencing instruction had an existing address. -/
theorem operand_lt_of_exec_next {i : Instr} {s t : State} (h : exec i s = .next t) (hi : i.addrUse = .data) :
    i.operand.toNat < 1024 := by
  by_contra hx
  exact not_execFails_of_next h _ (.beyondMemory (ctrl_of_exec_next h) hi (Nat.not_lt.1 hx))

/-! ### The checks by opcode -/

/-- The 13 memory-referencing opcodes (40_fetch_execute.md R111). -/
theorem addrUse_data_iff (i : Instr) :
    i.addrUse = .data ↔ i.opcode.toNat ∈ [1, 2, 3, 5, 6, 7, 8, 9, 11, 12, 18, 19, 33] := by
  cases i <;> simp [Instr.addrUse, Instr.opcode]

/-- The four jump opcodes (44_jump.md R154). -/
theorem addrUse_jump_iff (i : Instr) : i.addrUse = .jump ↔ i.opcode.toNat ∈ [13, 14, 15, 16] := by
  cases i <;> simp [Instr.addrUse, Instr.opcode]

/-- Opcode 12 is DIV (30_encoding.md R74). -/
theorem eq_divM_iff (i : Instr) : i = .divM i.operand ↔ i.opcode.toNat = 12 := by
  cases i <;> simp [Instr.operand, Instr.opcode]

/-- Settles O24: of the failures of an instruction only that of the address check is `invalidAccess`, and the check
fails on exactly these operands. -/
theorem invalidAccessExactlyForMemoryReferencesBeyondMemory :
    Obligations.InvalidAccessExactlyForMemoryReferencesBeyondMemory := by
  intro i s n
  rw [← addrUse_data_iff]
  constructor
  · intro h
    cases exec_fault h with
    | beyondMemory hc hi hx => exact ⟨hc, hi, rfl, hx⟩
  · rintro ⟨hc, hi, rfl, hx⟩
    exact exec_of_beyond_memory hc hi hx

/-- An opcode of the table in IR is the opcode of an instruction whose operand is MAR. -/
theorem exists_inFlight_of_opcodeDefined {s : State} (hop : opcodeDefined s.ir = true) :
    ∃ i : Instr, decode s.inFlight = .ok i ∧ i.opcode = s.ir ∧ i.operand = s.mar := by
  obtain ⟨i, hi⟩ := decodeParts_of_opcodeDefined hop s.mar
  obtain ⟨hir, hmar⟩ := parts_of_decodeParts hi
  refine ⟨i, ?_, hir.symm, hmar.symm⟩
  rw [State.inFlight, hir, hmar]
  exact decode_encode i

/-- `execute()` in turn, of an opcode of the table, is one of the 20 meanings. -/
theorem exists_execute_eq_exec {s : State} (hc : s.ctrl = .leftExecute ∨ s.ctrl = .rightExecute)
    (hop : opcodeDefined s.ir = true) : ∃ i : Instr, execute s = exec i s ∧ i.opcode = s.ir ∧ i.operand = s.mar := by
  obtain ⟨i, hd, hir, hmar⟩ := exists_inFlight_of_opcodeDefined hop
  exact ⟨i, execute_of_decode ((Ctrl.isExecute_iff _).2 hc) hd, hir, hmar⟩

/-- A memory-referencing opcode is defined. -/
theorem opcodeDefined_of_data {op : Opcode} (hop : op.toNat ∈ [1, 2, 3, 5, 6, 7, 8, 9, 11, 12, 18, 19, 33]) :
    opcodeDefined op = true := by
  have hsub : [1, 2, 3, 5, 6, 7, 8, 9, 11, 12, 18, 19, 33] ⊆ definedOpcodes.map BitVec.toNat := by decide
  exact (opcodeDefined_iff_toNat_mem op).2 (hsub hop)

/-- Settles O27: a defined opcode runs a meaning, whose address check and divisor check fail or pass as
`exec_of_beyond_memory`, `execDivM_of_zero` and `exec_completes` say. -/
theorem executeChecksInOrderAndElseCompletes : Obligations.ExecuteChecksInOrderAndElseCompletes := by
  intro s
  constructor
  · rw [← Ctrl.isExecute_iff]
    exact fun hc => execute_of_not_isExecute (eq_false_of_ne_true hc)
  intro hc
  have hexec := (Ctrl.isExecute_iff _).2 hc
  refine ⟨fun hir => ?_, fun hir hx => ?_, fun hir hx hd => ?_, fun hir hx hd => ?_⟩
  · exact ⟨_, execute_of_undefined hexec fun hop => hir ((opcodeDefined_iff_toNat_mem _).1 hop)⟩
  · obtain ⟨i, heq, hop, hmar⟩ := exists_execute_eq_exec hc (opcodeDefined_of_data hir)
    rw [← hop, ← addrUse_data_iff] at hir
    rw [heq, ← hmar]
    exact exec_of_beyond_memory hc hir (hmar ▸ hx)
  · obtain ⟨i, heq, hop, hmar⟩ := exists_execute_eq_exec hc (opcodeDefined_of_data (by simp [hir]))
    rw [← hop, ← eq_divM_iff, hmar] at hir
    rw [heq, hir]
    exact execDivM_of_zero hexec hx hd
  · obtain ⟨i, heq, hop, hmar⟩ := exists_execute_eq_exec hc ((opcodeDefined_iff_toNat_mem _).2 hir)
    rw [← hop, ← addrUse_data_iff, ← hmar] at hx
    rw [← hop, ← eq_divM_iff, ← hmar] at hd
    rw [heq]
    exact exec_completes hc hx hd

/-! ### Failures of the stepping operations -/

theorem execute_not_refused (s : State) (k : Refusal) : execute s ≠ .refused k := by
  intro h
  obtain ⟨i, -, hi⟩ := execute_refused h
  exact exec_not_refused i s k hi

/-- Settles O49: a fetch refuses nothing, and neither does a meaning. -/
theorem noStepIsEverRefused : Obligations.NoStepIsEverRefused := by
  intro s k h
  by_cases hc : s.ctrl.isExecute = true
  · exact execute_not_refused s k (step_of_execute hc ▸ h)
  · rw [step_of_fetch (eq_false_of_ne_true hc)] at h
    cases hfetch : fetch s with
    | next t => exact execute_not_refused t k (by rwa [hfetch] at h)
    | fault k' => rw [hfetch] at h; nomatch h
    | refused k' => exact fetch_refused hfetch

/-- `execute()` fails with the kinds of the block itself (60_exceptions.md R183). -/
theorem execute_fault_fromEngine {s : State} {k : Fault} (h : execute s = .fault k) : k.fromEngine = true := by
  rcases execute_fault h with ⟨-, rfl⟩ | ⟨-, -, rfl⟩ | ⟨-, i, -, hi⟩
  · rfl
  · rfl
  · cases exec_fault hi <;> rfl

/-- `fetch()` fails with `invalidData` at PC = 4095 only, where no sequenced state is (60_exceptions.md R190). -/
theorem fetch_fault_fromEngine {s : State} {k : Fault} (hs : s.sequenced = true) (h : fetch s = .fault k) :
    k.fromEngine = true := by
  rcases fetch_fault h with ⟨-, rfl⟩ | ⟨-, -, rfl⟩ | ⟨hc, hp, -⟩
  · rfl
  · rfl
  · rw [State.sequenced, hc] at hs
    have hlt : s.pc.toNat < 1024 := of_decide_eq_true hs
    omega

/-- Settles O48: a step fails by its fetch or by its `execute()`. -/
theorem engineFaultsAreTheFiveKinds : Obligations.EngineFaultsAreTheFiveKinds := by
  intro s k hinv h
  have hs : s.sequenced = true := (Bool.and_eq_true_iff.1 hinv).2
  rcases h with h | h | h
  · exact fetch_fault_fromEngine hs h
  · exact execute_fault_fromEngine h
  · by_cases hc : s.ctrl.isExecute = true
    · exact execute_fault_fromEngine (step_of_execute hc ▸ h)
    · rw [step_of_fetch (eq_false_of_ne_true hc)] at h
      rcases andThen_fault.1 h with h | ⟨t, -, h⟩
      · exact fetch_fault_fromEngine hs h
      · exact execute_fault_fromEngine h

end Sys2Proof.Proofs
end

section
/-! SUPPORT. What an instruction changes when it completes (10_state.md, who writes what). -/

namespace Sys2Proof.Proofs

open Sys2Proof Sys2Proof.Machine

/-- Where the machine goes on after a completed instruction: in sequence, or at a jump's target (10_state.md, who writes
PC and CTRL). -/
def FlowsOn (i : Instr) (s t : State) : Prop :=
  (t.pc = s.pc ∧ t.ctrl = s.ctrl.advanced)
    ∨ (i.addrUse = .jump ∧ t.pc = i.operand ∧ (t.ctrl = .leftFetch ∨ t.ctrl = .rightFetchRAM))

/-- What a completed instruction does to the registers (10_state.md, who writes what; MBR by D3, log 8). Memory is
`memoryAfter`. -/
structure RegisterFrame (i : Instr) (s t : State) : Prop where
  mar : t.mar = s.mar
  ir : t.ir = s.ir
  ibr : t.ibr = s.ibr
  flow : FlowsOn i s t
  ac : t.ac = s.ac ∨ i.opcode.toNat ∈ [1, 2, 3, 5, 6, 7, 8, 10, 11, 12, 20, 21]
  mq : t.mq = s.mq ∨ i.opcode.toNat ∈ [9, 11, 12]
  mbr : t.mbr = s.mbr ∨ i.opcode.toNat ∈ [1, 2, 3, 5, 6, 7, 8, 9, 33]

/-- A jump that is taken writes PC and CTRL only. -/
theorem registerFrame_jump {i : Instr} (s : State) (hi : i.addrUse = .jump) {half : Ctrl}
    (hhalf : half = .leftFetch ∨ half = .rightFetchRAM) :
    RegisterFrame i s { s with pc := i.operand, ctrl := half } :=
  ⟨rfl, rfl, rfl, .inr ⟨hi, rfl, hhalf⟩, .inl rfl, .inl rfl, .inl rfl⟩

/-- A conditional jump writes PC and CTRL only, whether it is taken or not. -/
theorem jumpIfNonNegative_registerFrame {i : Instr} {s t : State} (hc : s.ctrl = .leftExecute ∨ s.ctrl = .rightExecute)
    (hi : i.addrUse = .jump) {half : Ctrl} (hhalf : half = .leftFetch ∨ half = .rightFetchRAM)
    (h : jumpIfNonNegative i.operand half s = .next t) : RegisterFrame i s t := by
  cases h.symm.trans (jumpIfNonNegative_eq hc i.operand half)
  split
  case isTrue => exact registerFrame_jump s hi hhalf
  case isFalse => exact ⟨rfl, rfl, rfl, .inl ⟨rfl, (advanced_of_execute hc).symm⟩, .inl rfl, .inl rfl, .inl rfl⟩

/-- The registers after every instruction that completes. -/
theorem exec_registerFrame {i : Instr} {s t : State} (h : exec i s = .next t) : RegisterFrame i s t := by
  have hc := ctrl_of_exec_next h
  have hx := operand_lt_of_exec_next h
  have hadvance := (advanced_of_execute hc).symm
  cases i with
  | loadM x | loadNegM x | loadAbsM x =>
    cases h.symm.trans ((loadAc_outcomes _ x hc).1 (hx rfl))
    exact ⟨rfl, rfl, rfl, .inl ⟨rfl, hadvance⟩, .inr (by simp [Instr.opcode]), .inl rfl, .inr (by simp [Instr.opcode])⟩
  | addM x | subM x | addAbsM x | subAbsM x =>
    cases h.symm.trans ((combineAc_outcomes _ _ x hc).1 (hx rfl))
    exact ⟨rfl, rfl, rfl, .inl ⟨rfl, hadvance⟩, .inr (by simp [Instr.opcode]), .inl rfl, .inr (by simp [Instr.opcode])⟩
  | loadMqM x =>
    cases h.symm.trans ((loadMqFromMemoryKeepsAc x s hc).1 (hx rfl))
    exact ⟨rfl, rfl, rfl, .inl ⟨rfl, hadvance⟩, .inl rfl, .inr (by simp [Instr.opcode]), .inr (by simp [Instr.opcode])⟩
  | loadMq | lsh | rsh =>
    obtain ⟨-, ⟨⟩⟩ := executing_next h
    exact ⟨rfl, rfl, rfl, .inl ⟨rfl, rfl⟩, .inr (by simp [Instr.opcode]), .inl rfl, .inl rfl⟩
  | mulM x =>
    cases h.symm.trans ((execMulM_outcomes x hc).1 (hx rfl))
    exact ⟨rfl, rfl, rfl, .inl ⟨rfl, hadvance⟩, .inr (by simp [Instr.opcode]), .inr (by simp [Instr.opcode]), .inl rfl⟩
  | divM x =>
    have hd : s.mem.read x.toNat ≠ 0 := fun hd => not_execFails_of_next h _ (.zeroDivisor hc rfl (hx rfl) hd)
    cases h.symm.trans (execDivM_of_ne_zero hc (hx rfl) hd)
    exact ⟨rfl, rfl, rfl, .inl ⟨rfl, hadvance⟩, .inr (by simp [Instr.opcode]), .inr (by simp [Instr.opcode]), .inl rfl⟩
  | jumpLeft x =>
    cases h.symm.trans (exec_jumpLeft hc x)
    exact registerFrame_jump s rfl (.inl rfl)
  | jumpRight x =>
    cases h.symm.trans (exec_jumpRight hc x)
    exact registerFrame_jump s rfl (.inr rfl)
  | jumpPlusLeft => exact jumpIfNonNegative_registerFrame hc rfl (.inl rfl) h
  | jumpPlusRight => exact jumpIfNonNegative_registerFrame hc rfl (.inr rfl) h
  | storM x =>
    cases h.symm.trans ((execStorM_outcomes x hc).1 (hx rfl))
    exact ⟨rfl, rfl, rfl, .inl ⟨rfl, hadvance⟩, .inl rfl, .inl rfl, .inr (by simp [Instr.opcode])⟩
  | storLeftAddr x | storRightAddr x =>
    cases h.symm.trans ((patchAddressField_outcomes _ _ x hc).1 (hx rfl))
    exact ⟨rfl, rfl, rfl, .inl ⟨rfl, hadvance⟩, .inl rfl, .inl rfl, .inl rfl⟩

/-- An instruction that does not jump keeps PC and advances CTRL (40_fetch_execute.md R108). -/
theorem exec_next_of_not_jump {i : Instr} {s t : State} (h : exec i s = .next t) (hi : i.addrUse ≠ .jump) :
    t.pc = s.pc ∧ t.ctrl = s.ctrl.advanced :=
  (exec_registerFrame h).flow.resolve_right fun hjump => hi hjump.1

/-- Only the three stores leave another memory (20_memory.md R55). -/
theorem memoryAfter_eq_or_store (i : Instr) (s : State) :
    memoryAfter i s = s.mem ∨ i.opcode.toNat ∈ [18, 19, 33] := by
  cases i with
  | storM | storLeftAddr | storRightAddr => exact .inr (by simp [Instr.opcode])
  | _ => exact .inl rfl

/-- Settles O38: the registers are `exec_registerFrame`'s, memory is `exec_leavesMemory`'s. -/
theorem instructionsWriteOnlyTheirOwnRegisters : Obligations.InstructionsWriteOnlyTheirOwnRegisters := by
  intro i s t h
  have frame := exec_registerFrame h
  have hpc : t.pc = s.pc ∨ i.opcode.toNat ∈ [13, 14, 15, 16] ∧ t.pc = i.operand :=
    frame.flow.imp And.left fun ⟨hi, hpc, _⟩ => ⟨(addrUse_jump_iff i).1 hi, hpc⟩
  have hmem : t.mem = s.mem ∨ i.opcode.toNat ∈ [18, 19, 33] := by
    rw [exec_leavesMemory i s t h]
    exact memoryAfter_eq_or_store i s
  exact ⟨frame.mar, frame.ir, frame.ibr, hpc, frame.ac, frame.mq, frame.mbr, hmem⟩

end Sys2Proof.Proofs
end

section
/-! SUPPORT. The bits of a word after a partial store (45_store.md R166, R167). -/

namespace Sys2Proof.Proofs

open Sys2Proof Sys2Proof.Machine

/-- A field copied from the same position of another word: inside it the bits are that word's, outside they are kept. -/
theorem splice_selectBits_getLsbD (w v : Word) (lsb n k : Nat) :
    (splice w lsb (selectBits v lsb n)).getLsbD k = if lsb ≤ k ∧ k < lsb + n then v.getLsbD k else w.getLsbD k := by
  by_cases hin : lsb ≤ k ∧ k < lsb + n
  · have hwidth : k - lsb < n := by omega
    have hback : lsb + (k - lsb) = k := by omega
    rw [splice_getLsbD, if_pos hin, if_pos hin, selectBits, BitVec.getLsbD_extractLsb', hback, decide_eq_true hwidth,
      Bool.true_and, Bool.and_eq_right_iff_imp]
    exact fun hbit => decide_eq_true (BitVec.lt_of_getLsbD hbit)
  · rw [if_neg hin, splice_getLsbD_outside w _ (by omega)]

/-- Settles O19: both partial stores copy the field of AC at the position they write (D4 for opcode 18), and the memory
they leave is one write. -/
theorem partialStoresReplaceTwelveBitsAtTheirPosition : Obligations.PartialStoresReplaceTwelveBitsAtTheirPosition := by
  intro x s hc hx
  constructor
  · refine ⟨_, (patchAddressField_outcomes 20 (selectBits s.ac storLeftSrcLsb 12) x hc).1 hx, rfl, fun k => ?_,
      fun _ ha => Memory.read_write_other _ _ ha⟩
    rw [Memory.read_write_same]
    exact splice_selectBits_getLsbD _ _ 20 12 k
  · refine ⟨_, (patchAddressField_outcomes 0 (selectBits s.ac 0 12) x hc).1 hx, rfl, fun k => ?_,
      fun _ ha => Memory.read_write_other _ _ ha⟩
    rw [Memory.read_write_same, splice_selectBits_getLsbD, Nat.zero_add]
    simp only [Nat.zero_le, true_and]

end Sys2Proof.Proofs
end

section
/-! SUPPORT. Runs of more than one instruction: the idle point (70_reset_and_hazards.md, the end of a run), the two halves
of a word (40_fetch_execute.md, the instruction stream), the IBR hazard, and a load after a store. -/

namespace Sys2Proof.Proofs

open Sys2Proof Sys2Proof.Machine

/-! ### The idle point -/

/-- The idle point in parts (70_reset_and_hazards.md R216): the left instruction of word h is the jump to itself. -/
theorem idleAt_iff (s : State) (h : Addr) : s.idleAt h = true ↔
    s.ctrl = .leftFetch ∧ s.pc = h ∧ h.toNat < Config.memWords
      ∧ leftField (s.mem.read h.toNat) = encode (.jumpLeft h) := by
  have hfield : (leftField (s.mem.read h.toNat)).toNat = 13 * 4096 + h.toNat
      ↔ leftField (s.mem.read h.toNat) = encode (.jumpLeft h) := by
    rw [← BitVec.toNat_inj]
    exact (Laws.makeField_toNat 13 h).symm ▸ Iff.rfl
  rw [State.idleAt, inMemory, Bool.and_eq_true, Bool.and_eq_true, Bool.and_eq_true, decide_eq_true_eq, decide_eq_true_eq,
    decide_eq_true_eq, decide_eq_true_eq, hfield, and_assoc, and_assoc]

/-- The state after a left jump from word h to itself: what the fetch of the word loaded, and nothing else. -/
def afterSelfJump (h : Addr) (s : State) : State :=
  { s with mbr := s.mem.read h.toNat, ir := 13, mar := h, ibr := rightField (s.mem.read h.toNat) }

theorem step_of_idleAt {s : State} {h : Addr} (hidle : s.idleAt h = true) : step s = .next (afterSelfJump h s) := by
  obtain ⟨hc, rfl, hp, hfield⟩ := (idleAt_iff s h).1 hidle
  rw [step_of_leftFetch hc hp (hfield ▸ decode_encode _), exec_jumpLeft (.inl rfl), afterSelfJump, ← hc]
  rfl

/-- The self-jump keeps CTRL, PC and memory, so the idle point. -/
theorem afterSelfJump_idleAt {s : State} {h : Addr} (hidle : s.idleAt h = true) :
    (afterSelfJump h s).idleAt h = true :=
  hidle

/-- Settles O43: the first step loads what a second one loads again from the same word, so that the second changes
nothing. -/
theorem idlePointStaysIdleForEver : Obligations.IdlePointStaysIdleForEver := by
  intro s h hidle
  have hagain : step (afterSelfJump h s) = .next (afterSelfJump h s) := step_of_idleAt (afterSelfJump_idleAt hidle)
  exact ⟨afterSelfJump h s, step_of_idleAt hidle, afterSelfJump_idleAt hidle, rfl, hagain⟩

/-! ### The two halves of a word -/

/-- After a completed left instruction that does not jump, the buffered right half is next (40_fetch_execute.md R108). -/
theorem step_left_next {s t : State} {i : Instr} (hc : s.ctrl = .leftFetch) (hp : s.pc.toNat < Config.memWords)
    (hd : decode (leftField (s.mem.read s.pc.toNat)) = .ok i) (hi : i.addrUse ≠ .jump) (h : step s = .next t) :
    t.ctrl = .rightFetch ∧ t.pc = s.pc ∧ t.ibr = rightField (s.mem.read s.pc.toNat) := by
  rw [step_of_leftFetch hc hp hd] at h
  obtain ⟨hpc, hctrl⟩ := exec_next_of_not_jump h hi
  exact ⟨hctrl, hpc, (exec_registerFrame h).ibr⟩

/-- The increment of a PC inside memory does not wrap (10_state.md R34). -/
theorem toNat_pc_add_one {x : Addr} (hx : x.toNat < 1024) : (x + 1).toNat = x.toNat + 1 := by
  rw [pc_add_one_eq_ofNat, ofNat_succ_toNat_of_lt hx]

/-- In a left fetch with PC just past the last word, a step fails by its fetch. -/
theorem step_past_memory {s : State} (hc : s.ctrl = .leftFetch) (hp : s.pc.toNat = 1024) :
    step s = .fault (.invalidFetch (some 1024)) := by
  have hpc : s.pc = 1024 := BitVec.eq_of_toNat_eq hp
  rw [step_of_fetch (by rw [hc]; rfl), fetch_beyond_memory (.inl hc) (Nat.le_of_eq hp.symm), hpc]
  rfl

/-- Settles O41: the left instruction leaves the buffered half to the next step (`step_left_next`), and the right one
leaves the fetch of the next word. -/
theorem aWordIsTwoInstructionsLeftThenRight : Obligations.AWordIsTwoInstructionsLeftThenRight := by
  intro s t i j hc hp hdi hi hdj hj h
  rw [← leftField_eq_ofNat] at hdi
  rw [← rightField_eq_ofNat] at hdj
  rw [← addrUse_jump_iff] at hi hj
  obtain ⟨hct, hpt, hibr⟩ := step_left_next hc hp hdi hi h
  have hstep : step t = exec j { t with ir := j.opcode, mar := j.operand, pc := s.pc + 1, ctrl := .rightExecute } := by
    rw [← hpt]
    exact step_of_rightFetch hct (by rw [hpt]; omega) (hibr ▸ hdj)
  refine ⟨hct, hpt, hstep, fun u hu => ?_⟩
  obtain ⟨hpu, hcu⟩ := exec_next_of_not_jump (hstep ▸ hu) hj
  have hnum : u.pc.toNat = s.pc.toNat + 1 := (congrArg BitVec.toNat hpu).trans (toNat_pc_add_one hp)
  exact ⟨hcu, hnum, fun hlast => step_past_memory hcu (by omega)⟩

/-! ### The IBR hazard -/

/-- A fetch from memory, left or right, reads the word that memory holds now (20_memory.md R51). -/
theorem fetch_reads_memory {s : State} (hc : s.ctrl = .leftFetch ∨ s.ctrl = .rightFetchRAM)
    (hp : s.pc.toNat < Config.memWords) : ∃ t, fetch s = .next t ∧ t.mbr = s.mem.read s.pc.toNat := by
  rcases hc with hc | hc
  · exact ⟨_, fetch_of_leftFetch hc hp, rfl⟩
  · exact ⟨_, fetch_of_rightFetchRAM hc hp, rfl⟩

/-- The three stores reference memory at their address, and divide nothing. -/
theorem stores_spec {x : Addr} {i : Instr} (hi : i ∈ [Instr.storM x, .storLeftAddr x, .storRightAddr x]) :
    i.addrUse = .data ∧ i.operand = x ∧ i ≠ .divM i.operand := by
  simp only [List.mem_cons, List.not_mem_nil, or_false] at hi
  rcases hi with rfl | rfl | rfl
  all_goals exact ⟨rfl, rfl, nofun⟩

/-- Settles O40: the store leaves IBR as the fetch of the word filled it, so that the next fetch takes the old right half,
whereas a fetch from memory reads what `exec_leavesMemory` says the store left. -/
theorem storeIntoOwnWordIsNotSeenByItsRightInstruction :
    Obligations.StoreIntoOwnWordIsNotSeenByItsRightInstruction := by
  intro s hc hp i hi hd
  rw [← leftField_eq_ofNat] at hd
  obtain ⟨hdata, hoperand, hdiv⟩ := stores_spec hi
  obtain ⟨t, hexec⟩ := exec_completes (i := i)
    (s := { s with mbr := s.mem.read s.pc.toNat, ir := i.opcode, mar := i.operand,
                   ibr := rightField (s.mem.read s.pc.toNat), ctrl := .leftExecute })
    (.inl rfl) (fun _ => hoperand ▸ hp) (fun h => absurd h hdiv)
  have hstep : step s = .next t := (step_of_leftFetch hc hp hd).trans hexec
  have hmem := exec_leavesMemory _ _ t hexec
  obtain ⟨hct, hpt, hibr⟩ := step_left_next hc hp hd (by rw [hdata]; nofun) hstep
  refine ⟨t, _, hstep, fetch_of_rightFetch hct (by rw [hpt]; omega), ?_, ?_, ?_, ?_, ?_, rfl, rfl, ?_⟩
  · rintro rfl
    rw [hmem]
    exact Memory.read_write_same _ _ _
  · rintro rfl k hk
    rw [hmem, memoryAfter, Memory.read_write_same, splice_selectBits_getLsbD, if_pos ⟨k.zero_le, by omega⟩]
  · exact (congrArg fieldOpcode hibr).trans (fieldOpcode_rightField _)
  · exact (congrArg fieldAddr hibr).trans (fieldAddr_rightField _)
  · exact (congrArg (fun x : Addr => (x + 1).toNat) hpt).trans (toNat_pc_add_one hp)
  · intro v hvmem hvpc hvc
    obtain ⟨w, hw, hmbr⟩ := fetch_reads_memory hvc (hvpc ▸ hp)
    exact ⟨w, hw, by rw [hmbr, hvmem, hvpc]⟩

/-! ### A load after a store -/

/-- Settles O21: the store leaves one write, and the load of any later state with that memory reads through it. -/
theorem loadAfterStoreReadsTheLatestWrite : Obligations.LoadAfterStoreReadsTheLatestWrite := by
  intro x y s hc hx hy
  refine ⟨_, (execStorM_outcomes x hc).1 hx, fun v hmem hv => ⟨_, (loadAc_outcomes .plain y hv).1 hy, ?_⟩⟩
  show v.mem.read y.toNat = _
  rw [hmem, Memory.read_write]
  simp only [BitVec.toNat_inj]

end Sys2Proof.Proofs
end

section
/-! SUPPORT. The invariant: canonical memory and a sequenced PC, kept by every step and by every request but `setCPU`
(10_state.md, the PC in each control state; 80_host_interface.md). -/

namespace Sys2Proof.Proofs

open Sys2Proof Sys2Proof.Machine

/-! ### The invariant in parts -/

theorem inv_iff (s : State) : s.inv = true ↔ s.mem.wf = true ∧ s.sequenced = true := Bool.and_eq_true_iff

/-- `left_fetch` and `right_fetch_RAM` allow every PC, since their fetch checks it (10_state.md R31). -/
theorem sequenced_of_fetch_from_memory {s : State} (hc : s.ctrl = .leftFetch ∨ s.ctrl = .rightFetchRAM) :
    s.sequenced = true := by
  rcases hc with hc | hc
  all_goals rw [State.sequenced, hc]

/-- In `left_execute` and `right_fetch` PC names the word the instructions come from. -/
theorem sequenced_iff_pc_lt {s : State} (hc : s.ctrl = .leftExecute ∨ s.ctrl = .rightFetch) :
    s.sequenced = true ↔ s.pc.toNat < 1024 := by
  rcases hc with hc | hc
  all_goals
    rw [State.sequenced, hc]
    exact decide_eq_true_iff

/-- In `right_execute` PC is one past the word the instruction came from. -/
theorem sequenced_iff_of_rightExecute {s : State} (hc : s.ctrl = .rightExecute) :
    s.sequenced = true ↔ 1 ≤ s.pc.toNat ∧ s.pc.toNat ≤ 1024 := by
  rw [State.sequenced, hc]
  exact Bool.and_eq_true_iff.trans (and_congr decide_eq_true_iff decide_eq_true_iff)

/-- Settles O45: the empty memory is canonical, and `left_fetch` allows every PC. -/
theorem resetSatisfiesTheInvariant : Obligations.ResetSatisfiesTheInvariant :=
  (inv_iff _).2 ⟨Memory.empty_wf, sequenced_of_fetch_from_memory (.inl rfl)⟩

/-! ### fetch() and execute() -/

/-- A completed `execute()` leaves canonical memory: the three stores write an existing address. -/
theorem execute_wf {s t : State} (hwf : s.mem.wf = true) (h : execute s = .next t) : t.mem.wf = true := by
  obtain ⟨-, i, -, h⟩ := execute_next h
  rw [exec_leavesMemory i s t h]
  have hx := operand_lt_of_exec_next h
  cases i with
  | storM | storLeftAddr | storRightAddr => exact Memory.write_wf _ _ hwf (hx rfl)
  | _ => exact hwf

theorem fetch_mem {s t : State} (h : fetch s = .next t) : t.mem = s.mem := by
  obtain ⟨-, -, rfl⟩ | ⟨-, -, rfl⟩ | ⟨-, -, rfl⟩ := fetch_next h
  all_goals rfl

/-- A completed instruction leaves PC where the control state it ends in wants it: after a left instruction PC still names
its word, and every other end is a fetch from memory. -/
theorem execute_sequenced {s t : State} (hs : s.sequenced = true) (h : execute s = .next t) : t.sequenced = true := by
  obtain ⟨-, i, -, h⟩ := execute_next h
  rcases (exec_registerFrame h).flow with ⟨hpc, hctrl⟩ | ⟨-, -, hctrl⟩
  · rcases ctrl_of_exec_next h with hc | hc
    · rw [hc] at hctrl
      rw [sequenced_iff_pc_lt (.inr hctrl), hpc]
      exact (sequenced_iff_pc_lt (.inl hc)).1 hs
    · rw [hc] at hctrl
      exact sequenced_of_fetch_from_memory (.inl hctrl)
  · exact sequenced_of_fetch_from_memory hctrl

/-- PC after a completed fetch from a sequenced state: kept by the left one, one more by the other two, without wrapping
(10_state.md R34). -/
theorem fetch_pc {s t : State} (hs : s.sequenced = true) (h : fetch s = .next t) :
    (s.ctrl = .leftFetch ∧ t.ctrl = .leftExecute ∧ t.pc = s.pc ∧ s.pc.toNat < 1024)
    ∨ (s.ctrl ≠ .leftFetch ∧ t.ctrl = .rightExecute ∧ t.pc.toNat = s.pc.toNat + 1 ∧ s.pc.toNat < 1024) := by
  obtain ⟨hc, hp, rfl⟩ | ⟨hc, -, rfl⟩ | ⟨hc, hp, rfl⟩ := fetch_next h
  · exact .inl ⟨hc, rfl, rfl, hp⟩
  · have hp := (sequenced_iff_pc_lt (.inr hc)).1 hs
    exact .inr ⟨by simp [hc], rfl, toNat_pc_add_one hp, hp⟩
  · exact .inr ⟨by simp [hc], rfl, toNat_pc_add_one hp, hp⟩

theorem fetch_sequenced {s t : State} (hs : s.sequenced = true) (h : fetch s = .next t) : t.sequenced = true := by
  rcases fetch_pc hs h with ⟨-, hc, hpc, hp⟩ | ⟨-, hc, hpc, hp⟩
  · exact (sequenced_iff_pc_lt (.inl hc)).2 (hpc ▸ hp)
  · exact (sequenced_iff_of_rightExecute hc).2 (by omega)

/-- Settles O50: `fetch_pc` says how PC moves, and a sequenced state that fetches has PC below 1024. -/
theorem programCounterNeverWraps : Obligations.ProgramCounterNeverWraps := by
  intro s t hinv h
  rcases fetch_pc ((inv_iff s).1 hinv).2 h with ⟨hc, -, hpc, -⟩ | ⟨hc, -, hpc, hp⟩
  · exact ⟨fun _ => hpc, fun hne => absurd hc hne⟩
  · exact ⟨fun hc' => absurd hc' hc, fun _ => ⟨hpc, by omega⟩⟩

theorem fetch_inv {s t : State} (hinv : s.inv = true) (h : fetch s = .next t) : t.inv = true := by
  obtain ⟨hwf, hs⟩ := (inv_iff s).1 hinv
  exact (inv_iff t).2 ⟨fetch_mem h ▸ hwf, fetch_sequenced hs h⟩

theorem execute_inv {s t : State} (hinv : s.inv = true) (h : execute s = .next t) : t.inv = true := by
  obtain ⟨hwf, hs⟩ := (inv_iff s).1 hinv
  exact (inv_iff t).2 ⟨execute_wf hwf h, execute_sequenced hs h⟩

/-- Settles O44: a step is its fetch, if it makes one, and its `execute()`, and both keep the invariant. -/
theorem stepKeepsMemoryCanonicalAndPcSequenced : Obligations.StepKeepsMemoryCanonicalAndPcSequenced := by
  intro s t hinv h
  rcases step_next h with ⟨-, h⟩ | ⟨-, u, hfetch, hexec⟩
  · exact execute_inv hinv h
  · exact execute_inv (fetch_inv hinv hfetch) hexec

/-! ### The host's writes -/

/-- A property that the state has, and that the operation leaves when it goes on, holds after the answer. -/
theorem answerStep_keeps {P : State → Prop} {s : State} {r : Result} (hs : P s) (hr : ∀ t, r = .next t → P t) :
    P (answerStep s r).1 := by
  cases r with
  | next t => exact hr t rfl
  | fault | refused => exact hs

theorem answerWrite_keeps {P : State → Prop} {s : State} {r : Except Fault State} (hs : P s)
    (hr : ∀ t, r = .ok t → P t) : P (answerWrite s r).1 := by
  cases r with
  | ok t => exact hr t rfl
  | error => exact hs

theorem exceptMap_eq_ok {α β : Type} {f : α → β} {r : Except Fault α} {b : β} (h : r.map f = .ok b) :
    ∃ a, r = .ok a ∧ f a = b := by
  cases r with
  | ok a => exact ⟨a, rfl, Except.ok.inj h⟩
  | error => nomatch h

/-- A successful `setRAM` writes one existing word (80_host_interface.md R238). -/
theorem setRAM_ok {a : Nat} {attr : Text} {v : HostValue} {s t : State} (h : setRAM a attr v s = .ok t) :
    a < Config.memWords ∧ ∃ w, t = s.withMem (s.mem.write a w) := by
  unfold setRAM at h
  split at h
  case isFalse => nomatch h
  case isTrue ha =>
    refine ⟨(inMemory_iff a).1 ha, ?_⟩
    split at h
    · obtain ⟨n, -, rfl⟩ := exceptMap_eq_ok h
      exact ⟨_, rfl⟩
    · nomatch h

/-- A line of a memory text names existing addresses only (80_host_interface.md R243). -/
theorem readMapLine_ok {n : Nat} {line : Text} {c : Cell} (h : readMapLine n line = .ok (some c)) :
    c.1 < Config.memWords := by
  unfold readMapLine at h
  split at h
  · nomatch h
  · split at h
    · split at h
      · split at h
        · split at h
          case isTrue hin =>
            cases h
            exact (inMemory_iff _).1 (Bool.and_eq_true_iff.1 hin).1
          case isFalse => nomatch h
        · nomatch h
      · nomatch h
    · nomatch h

theorem readMap_ok {n : Nat} {lines : List Text} {cs : List Cell} (h : readMap n lines = .ok cs) :
    ∀ c ∈ cs, c.1 < Config.memWords := by
  induction lines generalizing n cs with
  | nil =>
    cases h
    exact nofun
  | cons line lines ih =>
    unfold readMap at h
    split at h
    · nomatch h
    · rename_i c hline
      split at h
      · nomatch h
      · rename_i rest hrest
        cases h
        intro d hd
        rcases List.mem_append.1 hd with hd | hd
        · exact readMapLine_ok (hline.trans (congrArg _ (Option.mem_toList.1 hd)))
        · exact ih hrest d hd

theorem writeCells_wf {m : Memory} {cs : List Cell} (hwf : m.wf = true) (hcs : ∀ c ∈ cs, c.1 < Config.memWords) :
    (writeCells m cs).wf = true := by
  induction cs generalizing m with
  | nil => exact hwf
  | cons c cs ih =>
    obtain ⟨hc, hcs⟩ := List.forall_mem_cons.1 hcs
    exact ih (Memory.write_wf m c.2 hwf hc) hcs

/-- A successful `loadRAM` writes memory only (80_host_interface.md R243). -/
theorem loadRAM_ok {text : Text} {s t : State} (h : loadRAM text s = .ok t) :
    ∃ cs, (∀ c ∈ cs, c.1 < Config.memWords) ∧ t = s.withMem (writeCells s.mem cs) := by
  obtain ⟨cs, hcs, rfl⟩ := exceptMap_eq_ok h
  exact ⟨cs, readMap_ok hcs, rfl⟩

/-- A register write leaves memory alone (80_host_interface.md R238). -/
theorem writeReg_mem {r : Reg} {a : Attr} {v : HostValue} {s t : State} (h : writeReg r a v s = .ok t) :
    t.mem = s.mem := by
  unfold writeReg at h
  split at h
  case h_8 => nomatch h
  all_goals
    obtain ⟨_, -, rfl⟩ := exceptMap_eq_ok h
    rfl

theorem setCPU_mem {reg attr : Text} {v : HostValue} {s t : State} (h : setCPU reg attr v s = .ok t) :
    t.mem = s.mem := by
  unfold setCPU at h
  split at h
  · nomatch h
  · split at h
    · split at h
      · cases h
        rfl
      · nomatch h
    · nomatch h
  · split at h
    · nomatch h
    · split at h
      · exact writeReg_mem h
      · nomatch h

/-! ### Every request -/

/-- Settles O47: the requests that write memory write existing addresses, and the others keep it. -/
theorem everyRequestKeepsMemoryCanonical : Obligations.EveryRequestKeepsMemoryCanonical := by
  intro r s hwf
  cases r with
  | fetch => exact answerStep_keeps (P := (·.mem.wf = true)) hwf fun t h => fetch_mem h ▸ hwf
  | execute => exact answerStep_keeps (P := (·.mem.wf = true)) hwf fun t h => execute_wf hwf h
  | setRAM a attr v =>
    refine answerWrite_keeps (P := (·.mem.wf = true)) hwf fun t h => ?_
    obtain ⟨ha, w, rfl⟩ := setRAM_ok h
    exact Memory.write_wf _ w hwf ha
  | setCPU reg attr v => exact answerWrite_keeps (P := (·.mem.wf = true)) hwf fun t h => setCPU_mem h ▸ hwf
  | loadRAM text =>
    refine answerWrite_keeps (P := (·.mem.wf = true)) hwf fun t h => ?_
    obtain ⟨cs, hcs, rfl⟩ := loadRAM_ok h
    exact writeCells_wf hwf hcs
  | getRAM | getCPU =>
    rw [perform, answerRead_state]
    exact hwf
  | zeroAllRAM => exact Memory.empty_wf
  | reset | zeroAllRegisters | dumpRAM | dumpCPU => exact hwf

/-- A request other than `setCPU` keeps PC in sequence: the host's other writes change no register, and the resets set CTRL
to `left_fetch` (D10 for `zeroAllRegisters()`). -/
theorem perform_sequenced {r : Request} {s : State} (hr : r.patchesRegister = false) (hs : s.sequenced = true) :
    (perform r s).1.sequenced = true := by
  cases r with
  | setCPU => nomatch hr
  | fetch => exact answerStep_keeps (P := (·.sequenced = true)) hs fun t h => fetch_sequenced hs h
  | execute => exact answerStep_keeps (P := (·.sequenced = true)) hs fun t h => execute_sequenced hs h
  | setRAM a attr v =>
    refine answerWrite_keeps (P := (·.sequenced = true)) hs fun t h => ?_
    obtain ⟨-, w, rfl⟩ := setRAM_ok h
    exact hs
  | loadRAM text =>
    refine answerWrite_keeps (P := (·.sequenced = true)) hs fun t h => ?_
    obtain ⟨cs, -, rfl⟩ := loadRAM_ok h
    exact hs
  | getRAM | getCPU =>
    rw [perform, answerRead_state]
    exact hs
  | reset | zeroAllRegisters => exact sequenced_of_fetch_from_memory (.inl rfl)
  | zeroAllRAM | dumpRAM | dumpCPU => exact hs

theorem perform_inv {r : Request} {s : State} (hr : r.patchesRegister = false) (hinv : s.inv = true) :
    (perform r s).1.inv = true := by
  obtain ⟨hwf, hs⟩ := (inv_iff s).1 hinv
  exact (inv_iff _).2 ⟨everyRequestKeepsMemoryCanonical r s hwf, perform_sequenced hr hs⟩

/-- Settles O46: by induction on the requests, each of which keeps the invariant. -/
theorem everyRunWithoutRegisterPatchesKeepsTheInvariant :
    Obligations.EveryRunWithoutRegisterPatchesKeepsTheInvariant := by
  intro rs
  induction rs with
  | nil => exact fun s _ hinv => hinv
  | cons r rs ih =>
    intro s hrs hinv
    obtain ⟨hr, hrs⟩ := List.forall_mem_cons.1 hrs
    exact ih (perform r s).1 hrs (perform_inv hr hinv)

end Sys2Proof.Proofs
end

section
/-! SUPPORT. The instructions that need no memory operand, and the jumps of either kind, as whole next states
(41_load.md, 44_jump.md, 46_shift.md); add and subtract of a magnitude (42_addsub.md). -/

namespace Sys2Proof.Proofs

open Sys2Proof Sys2Proof.Machine

/-- Settles O5: the meaning of `LOAD MQ` does not look at its address field (D19). -/
theorem loadMqCopiesMqIntoAcForEveryAddressField : Obligations.LoadMqCopiesMqIntoAcForEveryAddressField :=
  fun _ s hc => executing_advance hc (t := s.withAc s.mq) rfl

/-- Settles O23: each of the three equations is the same for every address field (D19). -/
theorem unusedAddressFieldHasNoEffect : Obligations.UnusedAddressFieldHasNoEffect :=
  fun x s hc => ⟨⟨_, exec_lsh hc x, exec_lsh hc 0⟩, ⟨_, exec_rsh hc x, exec_rsh hc 0⟩,
    ⟨_, loadMqCopiesMqIntoAcForEveryAddressField x s hc, loadMqCopiesMqIntoAcForEveryAddressField 0 s hc⟩⟩

/-- Settles O16: `JUMP+` to either half is `jumpIfNonNegative`. -/
theorem conditionalJumpsTestTheSignOfAc : Obligations.ConditionalJumpsTestTheSignOfAc :=
  fun x _ hc => ⟨jumpIfNonNegative_eq hc x .leftFetch, jumpIfNonNegative_eq hc x .rightFetchRAM⟩

/-- A word that reads as non-negative is below 2^39 (00_scope.md R13). -/
theorem toNat_lt_of_toInt_nonneg {w : Word} (h : 0 ≤ w.toInt) : w.toNat < 2 ^ 39 := by
  refine (isNegative_false_iff w).1 ?_
  rw [isNegative_eq_toInt_neg, decide_eq_false_iff_not]
  exact Int.not_lt.2 h

/-- Settles O17: no jump looks at its target (D2); each leaves PC at it in a state that fetches from memory, and that
fetch fails. -/
theorem jumpTargetsAreNotValidated : Obligations.JumpTargetsAreNotValidated := by
  intro x s hc hx i hi hac
  have hpos (h : i = .jumpPlusLeft x ∨ i = .jumpPlusRight x) : s.ac.toNat < 2 ^ 39 := toNat_lt_of_toInt_nonneg (hac h)
  have hleft := fetch_beyond_memory (s := { s with pc := x, ctrl := .leftFetch }) (.inl rfl) hx
  have hright := fetch_beyond_memory (s := { s with pc := x, ctrl := .rightFetchRAM }) (.inr rfl) hx
  simp only [List.mem_cons, List.not_mem_nil, or_false] at hi
  rcases hi with rfl | rfl | rfl | rfl
  · exact ⟨_, exec_jumpLeft hc x, by simp, hleft⟩
  · exact ⟨_, (jumpIfNonNegative_eq hc x .leftFetch).trans (by rw [if_pos (hpos (.inl rfl))]), by simp, hleft⟩
  · exact ⟨_, exec_jumpRight hc x, by simp, hright⟩
  · exact ⟨_, (jumpIfNonNegative_eq hc x .rightFetchRAM).trans (by rw [if_pos (hpos (.inr rfl))]), by simp, hright⟩

/-- Settles O8: the magnitude operand form is the absolute value of the signed reading (D7). -/
theorem addAndSubtractMagnitudes : Obligations.AddAndSubtractMagnitudes := by
  intro x s hc hx
  rw [← abs40_toNat_eq_natAbs]
  exact ⟨(combineAc_outcomes add40 .magnitude x hc).1 hx, (combineAc_outcomes sub40 .magnitude x hc).1 hx⟩

end Sys2Proof.Proofs
end

section
/-! SUPPORT. Multiply: the pair of words as one 80-bit number, its negation in both forms, the product by halves, and the
signed product (43_muldiv.md). -/

namespace Sys2Proof.Proofs

open Sys2Proof Sys2Proof.Machine

/-! ### The pair as a number -/

/-- The 80-bit number that a pair holds, high word above low word (43_muldiv.md R141). -/
def pairValue (p : Pair80) : Nat := p.hi.toNat * 2 ^ 40 + p.lo.toNat

theorem pairValue_split80 {n : Nat} (hn : n < 2 ^ 80) : pairValue (split80 n) = n := by
  rw [pairValue, split80_hi_toNat n hn, split80_lo_toNat]
  omega

theorem pairValue_neg80 (p : Pair80) : pairValue (neg80 p) = (2 ^ 80 - pairValue p) % 2 ^ 80 := by
  have hhi := word_lt p.hi
  have hlo := word_lt p.lo
  have hzero : p.lo = 0 ↔ p.lo.toNat = 0 := BitVec.toNat_inj.symm
  rw [pairValue, pairValue, neg80_hi_toNat, neg80_lo_toNat]
  simp only [hzero]
  split <;> omega

/-! ### Negation by complement -/

/-- Complementing after a decrement negates a word. -/
theorem complement_sub40_one (w : Word) : ~~~(sub40 w 1) = neg40 w := by
  have hw := word_lt w
  apply BitVec.eq_of_toNat_eq
  have hone : (1 : Word).toNat = 1 := rfl
  rw [BitVec.toNat_not, sub40_toNat, neg40_toNat, hone]
  omega

/-- Complementing alone is one less than negating. -/
theorem complement_eq_wrap40 (w : Word) : ~~~w = wrap40 (Config.wordMod - w.toNat - 1) := by
  have hw := word_lt w
  apply BitVec.eq_of_toNat_eq
  rw [BitVec.toNat_not, wrap40_toNat, Config.wordMod]
  omega

/-- The borrow out of the low word is what decides between the two forms of the high word. -/
theorem neg80_eq_neg80ByComplement (p : Pair80) : neg80 p = neg80ByComplement p := by
  rw [neg80, neg80ByComplement, complement_sub40_one]
  by_cases hlo : p.lo = 0
  · rw [if_pos hlo, if_pos hlo, complement_sub40_one]
    rfl
  · rw [if_neg hlo, if_neg hlo, complement_eq_wrap40]
    rfl

/-- Settles O14: the two forms are equal pairs, and the value is `pairValue_neg80`'s. -/
theorem negationOfThePairIsExactInBothForms : Obligations.NegationOfThePairIsExactInBothForms :=
  fun p => ⟨neg80_eq_neg80ByComplement p, pairValue_neg80 p⟩

/-! ### The product by halves -/

/-- The schoolbook product of two numbers in halves: the middle partial products go half to the high word and half, shifted
up, to the low one. -/
theorem mul_halves_eq (ah al bh bl : Nat) :
    (2 ^ 20 * ah + al) * (2 ^ 20 * bh + bl)
      = 2 ^ 40 * (ah * bh + (ah * bl + al * bh) / 2 ^ 20) + (al * bl + (ah * bl + al * bh) % 2 ^ 20 * 2 ^ 20) := by
  have hmid := Nat.div_add_mod (ah * bl + al * bh) (2 ^ 20)
  linear_combination 2 ^ 20 * hmid.symm

/-- The words that the datapath's sums make, once their carry out of the low word is added to the high one. -/
theorem words_of_mul_eq {p high low : Nat} (hp : p < 2 ^ 80) (h : p = 2 ^ 40 * high + low) :
    (wrap40 (high + low / 2 ^ 40)).toNat = p / 2 ^ 40 ∧ (wrap40 (low % 2 ^ 40)).toNat = p % 2 ^ 40 := by
  rw [wrap40_toNat, wrap40_toNat]
  omega

/-- Settles O13: a word is its two halves, so that `mul_halves_eq` is its product with another. -/
theorem productByHalvesIsTheExactProduct : Obligations.ProductByHalvesIsTheExactProduct := by
  intro a b
  have ha : a.toNat = 2 ^ 20 * (leftField a).toNat + (rightField a).toNat := by
    rw [leftField_toNat, rightField_toNat]
    exact (Nat.div_add_mod _ _).symm
  have hb : b.toNat = 2 ^ 20 * (leftField b).toNat + (rightField b).toNat := by
    rw [leftField_toNat, rightField_toNat]
    exact (Nat.div_add_mod _ _).symm
  have hp : a.toNat * b.toNat < 2 ^ 40 * 2 ^ 40 := Nat.mul_lt_mul'' a.isLt b.isLt
  exact words_of_mul_eq (hp.trans_eq (by norm_num)) ((congrArg₂ (· * ·) ha hb).trans (mul_halves_eq _ _ _ _))

/-! ### The signed product -/

/-- A product is that of the magnitudes, negated when the signs differ (43_muldiv.md R141). -/
theorem mul_eq_signed_natAbs (a b : Int) :
    a * b = if decide (a < 0) != decide (b < 0) then -((a.natAbs * b.natAbs : Nat) : Int)
      else ((a.natAbs * b.natAbs : Nat) : Int) := by
  rcases Int.lt_or_le a 0 with ha | ha <;> rcases Int.lt_or_le b 0 with hb | hb
  · simp [ha, hb, abs_of_neg]
  · simp [ha, Int.not_lt.2 hb, abs_of_neg, abs_of_nonneg hb]
  · simp [hb, Int.not_lt.2 ha, abs_of_neg, abs_of_nonneg ha]
  · simp [Int.not_lt.2 ha, Int.not_lt.2 hb, abs_of_nonneg ha, abs_of_nonneg hb]

/-- The product of two magnitudes fits the pair with room to spare (43_muldiv.md R141). -/
theorem natAbs_mul_lt (a m : Word) : a.toInt.natAbs * m.toInt.natAbs < 2 ^ 80 := by
  rw [← abs40_toNat_eq_natAbs, ← abs40_toNat_eq_natAbs]
  exact (Nat.mul_le_mul (abs40_le a) (abs40_le m)).trans_lt (by norm_num)

/-- The pair that MUL writes is the signed product modulo 2^80 (D6 for a negative one). -/
theorem pairValue_mul80 (a m : Word) : (pairValue (mul80 a m) : Int) = a.toInt * m.toInt % 2 ^ 80 := by
  have hlt := natAbs_mul_lt a m
  have hvalue := pairValue_split80 hlt
  rw [mul80, abs40_toNat_eq_natAbs, abs40_toNat_eq_natAbs, isNegative_eq_toInt_neg, isNegative_eq_toInt_neg,
    mul_eq_signed_natAbs a.toInt]
  generalize a.toInt.natAbs * m.toInt.natAbs = n at *
  cases decide (a.toInt < 0) != decide (m.toInt < 0) with
  | true =>
    show (pairValue (neg80 (split80 n)) : Int) = -(n : Int) % 2 ^ 80
    rw [pairValue_neg80, hvalue]
    omega
  | false =>
    show (pairValue (split80 n) : Int) = (n : Int) % 2 ^ 80
    rw [hvalue]
    omega

/-- Settles O10: AC and MQ are the two words of the pair, whose value is the product. -/
theorem multiplyWritesTheSignedEightyBitProduct : Obligations.MultiplyWritesTheSignedEightyBitProduct :=
  fun x s hc hx => ⟨_, (execMulM_outcomes x hc).1 hx, pairValue_mul80 s.mq (s.mem.read x.toNat), rfl⟩

end Sys2Proof.Proofs
end

section
/-! SUPPORT. Divide: the quotient and the remainder as those of truncated division (43_muldiv.md, the law of DIV). -/

namespace Sys2Proof.Proofs

open Sys2Proof Sys2Proof.Machine

/-- Truncated division divides the magnitudes and negates when the signs differ. -/
theorem signed_natAbs_div_eq_tdiv (a d : Int) :
    (if decide (a < 0) != decide (d < 0) then -((a.natAbs / d.natAbs : Nat) : Int) else ((a.natAbs / d.natAbs : Nat) : Int))
      = a.tdiv d := by
  rw [Int.ofNat_tdiv]
  rcases Int.lt_or_le a 0 with ha | ha <;> rcases Int.lt_or_le d 0 with hd | hd
  · simp [ha, hd, abs_of_neg, Int.neg_tdiv, Int.tdiv_neg]
  · simp [ha, Int.not_lt.2 hd, abs_of_neg, abs_of_nonneg hd, Int.neg_tdiv]
  · simp [hd, Int.not_lt.2 ha, abs_of_neg, abs_of_nonneg ha, Int.tdiv_neg]
  · simp [Int.not_lt.2 ha, Int.not_lt.2 hd, abs_of_nonneg ha, abs_of_nonneg hd]

theorem tmod_nonpos {a : Int} (d : Int) (ha : a ≤ 0) : a.tmod d ≤ 0 := by
  have hneg := Int.tmod_nonneg d (Int.neg_nonneg_of_nonpos ha)
  rw [Int.neg_tmod] at hneg
  omega

/-- Its remainder is the one of the magnitudes with the dividend's sign. -/
theorem signed_natAbs_mod_eq_tmod (a d : Int) :
    (if a < 0 then -((a.natAbs % d.natAbs : Nat) : Int) else ((a.natAbs % d.natAbs : Nat) : Int)) = a.tmod d := by
  rw [← Int.natAbs_tmod]
  rcases Int.lt_or_le a 0 with ha | ha
  · rw [if_pos ha, Int.ofNat_natAbs_of_nonpos (tmod_nonpos d (Int.le_of_lt ha)), Int.neg_neg]
  · rw [if_neg (Int.not_lt.2 ha), Int.natAbs_of_nonneg (Int.tmod_nonneg d ha)]

theorem divQuotient_eq_tdiv (a d : Word) : divQuotient a d = BitVec.ofInt 40 (a.toInt.tdiv d.toInt) := by
  rw [divQuotient_eq_ofInt, signed_natAbs_div_eq_tdiv]

theorem divRemainder_eq_tmod (a d : Word) : divRemainder a d = BitVec.ofInt 40 (a.toInt.tmod d.toInt) := by
  rw [divRemainder_eq_ofInt, signed_natAbs_mod_eq_tmod]

/-- A remainder is smaller than the divisor in magnitude. -/
theorem natAbs_tmod_lt (a : Word) {d : Word} (hd : d ≠ 0) : (a.toInt.tmod d.toInt).natAbs < d.toInt.natAbs := by
  rw [Int.natAbs_tmod]
  refine Nat.mod_lt _ (Nat.pos_of_ne_zero ?_)
  rwa [← abs40_toNat_eq_natAbs, Ne, abs40_eq_zero_iff]

/-- So it fits the signed range of a word, and the word that holds it reads as it. -/
theorem divRemainder_toInt (a : Word) {d : Word} (hd : d ≠ 0) : (divRemainder a d).toInt = a.toInt.tmod d.toInt := by
  have hlt := natAbs_tmod_lt a hd
  have hle := abs40_le d
  rw [abs40_toNat_eq_natAbs] at hle
  rw [divRemainder_eq_tmod, BitVec.toInt_ofInt]
  exact (bmod_congruent_and_exact_iff _).2.2 (by omega)

/-- Settles O12: the quotient is the truncated one and the remainder is the dividend less the divisor times it
(`Int.tmod_def`). -/
theorem divideTruncatesTowardZero : Obligations.DivideTruncatesTowardZero := by
  intro x s hc hx hd
  have hexec : exec (.divM x) s = _ := execDivM_of_ne_zero hc hx hd
  rw [← Int.tmod_def]
  constructor
  · rw [hexec, divQuotient_eq_tdiv, divRemainder_eq_tmod]
  · have hrem := divRemainder_toInt s.ac hd
    refine ⟨_, hexec, hrem, hrem ▸ natAbs_tmod_lt s.ac hd, fun ha => ?_, fun ha => ?_⟩
    · exact hrem ▸ tmod_nonpos _ (Int.le_of_lt ha)
    · exact hrem ▸ Int.tmod_nonneg _ ha

end Sys2Proof.Proofs
end

section
/-! SUPPORT. The text codec: what a template matches, at most one of them for every text, and the text of an instruction
read back (30_encoding.md R85 to R88). -/

namespace Sys2Proof.Proofs

open Sys2Proof Sys2Proof.Machine

/-! ### Reading a template -/

theorem afterPrefix_eq_some_iff {pre t rest : Text} : afterPrefix pre t = some rest ↔ t = pre ++ rest := by
  induction pre generalizing t with
  | nil => exact Option.some_inj
  | cons c pre ih =>
    cases t with
    | nil => exact ⟨nofun, nofun⟩
    | cons d t =>
      rw [afterPrefix, List.cons_append, List.cons_eq_cons]
      by_cases hcd : c = d
      · rw [if_pos hcd, ih, and_iff_right hcd.symm]
      · rw [if_neg hcd]
        exact ⟨nofun, fun h => absurd h.1.symm hcd⟩

/-- The characters that the address placeholder can stand for: hexadecimal digits, and the X of `0X` (R86). -/
def isPlaceholderChar (c : Char) : Bool := (hexDigitValue c).isSome || c == 'X'

/-- A run of digits and what follows it are the text, and the run is made of digits. -/
theorem spanHex_spec (t : Text) :
    t = (spanHex t).1 ++ (spanHex t).2 ∧ ∀ c ∈ (spanHex t).1, isPlaceholderChar c = true := by
  induction t with
  | nil => exact ⟨rfl, nofun⟩
  | cons c t ih =>
    obtain ⟨hsplit, hdigits⟩ := ih
    rw [spanHex]
    split
    case isTrue hc =>
      refine ⟨congrArg (c :: ·) hsplit, List.forall_mem_cons.2 ⟨?_, hdigits⟩⟩
      rw [isPlaceholderChar, hc, Bool.true_or]
    case isFalse => exact ⟨rfl, nofun⟩

theorem all_isPlaceholderChar_zeroX : "0X".toList.all isPlaceholderChar = true := by decide

/-- A placeholder read is a run of its characters before what is left. -/
theorem readPlaceholder_some {t left : Text} {n : Nat} (h : readPlaceholder t = some (n, left)) :
    ∃ run, t = run ++ left ∧ ∀ c ∈ run, isPlaceholderChar c = true := by
  unfold readPlaceholder at h
  split at h
  case h_1 rest hrest =>
    obtain ⟨_, -, ⟨⟩⟩ := Option.map_eq_some_iff.1 h
    obtain ⟨hsplit, hdigits⟩ := spanHex_spec rest
    refine ⟨"0X".toList ++ (spanHex rest).1, ?_, List.forall_mem_append.2 ⟨List.all_eq_true.1 all_isPlaceholderChar_zeroX, hdigits⟩⟩
    rw [List.append_assoc, ← hsplit]
    exact afterPrefix_eq_some_iff.1 hrest
  case h_2 =>
    split at h
    · cases h
      exact ⟨[], rfl, nofun⟩
    · obtain ⟨_, -, ⟨⟩⟩ := Option.map_eq_some_iff.1 h
      exact ⟨_, spanHex_spec t⟩

/-- All the ways a template matches a whole text (30_encoding.md R86, R87). -/
theorem matchWhole_eq_some_iff (p : Template) (t : Text) (n : Nat) : p.matchWhole t = some n ↔
    (p.after = none ∧ t = normalise p.before ∧ n = 0)
    ∨ ∃ tail rest, p.after = some tail ∧ t = normalise p.before ++ rest
      ∧ readPlaceholder rest = some (n, normalise tail) := by
  unfold Template.matchWhole
  cases hpre : afterPrefix (normalise p.before) t with
  | none =>
    have hne (rest : Text) : t ≠ normalise p.before ++ rest := fun h => nomatch hpre.symm.trans (afterPrefix_eq_some_iff.2 h)
    refine ⟨nofun, ?_⟩
    rintro (⟨-, ht, -⟩ | ⟨_, rest, -, ht, -⟩)
    · exact absurd (ht.trans (List.append_nil _).symm) (hne [])
    · exact absurd ht (hne rest)
  | some rest =>
    obtain rfl := afterPrefix_eq_some_iff.1 hpre
    cases hafter : p.after with
    | none => simp [eq_comm]
    | some tail =>
      cases hread : readPlaceholder rest with
      | none => simp [hread]
      | some r =>
        obtain ⟨m, left⟩ := r
        simp [hread, and_comm]

/-! ### At most one template matches -/

/-- What a text keeps of its template when the address is taken out: the part before the opening bracket, and the part
after the placeholder. -/
def outline (t : Text) : Text × Text :=
  (t.takeWhile (· != '('), (t.dropWhile (· != '(')).tail.dropWhile isPlaceholderChar)

/-- The same two parts of a template. -/
def templateOutline (p : Template) : Text × Text :=
  ((normalise p.before).takeWhile (· != '('), (p.after.map normalise).getD [])

/-- The text before a placeholder ends in its one bracket, and the text after it begins with none of the placeholder's
characters; a template without placeholder has no bracket. -/
def bracketed (p : Template) : Bool :=
  match p.after with
  | none => (normalise p.before).all (· != '(')
  | some tail =>
    normalise p.before == (templateOutline p).1 ++ ['(']
      && (normalise tail).dropWhile isPlaceholderChar == normalise tail

theorem templates_bracketed : ∀ p ∈ templates, bracketed p = true := by decide

theorem templates_outline_inj : ∀ p ∈ templates, ∀ q ∈ templates, templateOutline p = templateOutline q → p = q := by
  decide

/-- A text that a template matches has the template's outline. -/
theorem outline_of_matchWhole {p : Template} {t : Text} {n : Nat} (hp : p ∈ templates) (h : p.matchWhole t = some n) :
    outline t = templateOutline p := by
  have hbracketed := templates_bracketed p hp
  rcases (matchWhole_eq_some_iff p t n).1 h with ⟨hafter, rfl, -⟩ | ⟨tail, rest, hafter, rfl, hread⟩
  · rw [bracketed, hafter] at hbracketed
    have hnone : (normalise p.before).dropWhile (· != '(') = [] :=
      List.dropWhile_eq_nil_iff.2 (List.all_eq_true.1 hbracketed)
    rw [outline, templateOutline, hafter, hnone]
    rfl
  · rw [bracketed, hafter, Bool.and_eq_true, beq_iff_eq, beq_iff_eq] at hbracketed
    obtain ⟨hbefore, htail⟩ := hbracketed
    obtain ⟨run, rfl, hrun⟩ := readPlaceholder_some hread
    have hhead : ∀ c ∈ (templateOutline p).1, (c != '(') = true := fun c hc =>
      List.mem_takeWhile_imp (p := (· != '(')) hc
    rw [outline, hbefore, List.append_assoc, List.takeWhile_append_of_pos hhead, List.dropWhile_append_of_pos hhead]
    show (_ ++ [], (run ++ normalise tail).dropWhile isPlaceholderChar) = _
    rw [List.append_nil, List.dropWhile_append_of_pos hrun, htail]
    rw [templateOutline, hafter]
    rfl

/-- Settles O60: the outline of the text determines the template. -/
theorem atMostOneTemplateMatches : Obligations.AtMostOneTemplateMatches := by
  intro t p q m n hp hq hm hn
  exact templates_outline_inj p hp q hq ((outline_of_matchWhole hp hm).symm.trans (outline_of_matchWhole hq hn))

/-! ### The search for a template -/

/-- The search answers a template of the list that matches. -/
theorem matchTemplates_some {t : Text} {l : List Template} {p : Template} {n : Nat}
    (h : matchTemplates t l = some (p, n)) : p ∈ l ∧ p.matchWhole t = some n := by
  induction l with
  | nil => nomatch h
  | cons q l ih =>
    unfold matchTemplates at h
    split at h
    case h_1 m hm =>
      cases h
      exact ⟨List.mem_cons_self, hm⟩
    case h_2 => exact (ih h).imp_left (List.mem_cons_of_mem q)

/-- When no other template of the list matches, the search answers this one. -/
theorem matchTemplates_of_unique {t : Text} {l : List Template} {p : Template} {n : Nat} (hp : p ∈ l)
    (hn : p.matchWhole t = some n) (honly : ∀ q ∈ l, ∀ m, q.matchWhole t = some m → q = p) :
    matchTemplates t l = some (p, n) := by
  induction l with
  | nil => nomatch hp
  | cons q l ih =>
    obtain ⟨hq, honly⟩ := List.forall_mem_cons.1 honly
    unfold matchTemplates
    split
    case h_1 m hm =>
      obtain rfl := hq m hm
      rw [Option.some.inj (hm.symm.trans hn)]
    case h_2 hm =>
      have hne : p ≠ q := by
        rintro rfl
        nomatch hm.symm.trans hn
      exact ih (List.mem_of_ne_of_mem hne hp) honly

/-- By the mutual exclusion the search finds whichever template matches. -/
theorem matchTemplates_eq_some_iff {t : Text} {p : Template} {n : Nat} :
    matchTemplates t templates = some (p, n) ↔ p ∈ templates ∧ p.matchWhole t = some n :=
  ⟨matchTemplates_some, fun ⟨hp, hn⟩ =>
    matchTemplates_of_unique hp hn fun q hq m hm => atMostOneTemplateMatches t q p m n hq hp hm hn⟩

/-- All that `encode(text)` accepts (30_encoding.md R87). -/
theorem encodeText_eq_ok_iff {t : Text} {f : Field} : encodeText t = .ok f ↔
    ∃ p ∈ templates, ∃ n, p.matchWhole (normalise t) = some n ∧ n < Config.memWords
      ∧ f = makeField p.opcode (BitVec.ofNat 12 n) := by
  unfold encodeText
  constructor
  · intro h
    split at h
    case h_1 => nomatch h
    case h_2 p n hmatch =>
      obtain ⟨hp, hn⟩ := matchTemplates_eq_some_iff.1 hmatch
      split at h
      case isTrue hin => exact ⟨p, hp, n, hn, (inMemory_iff n).1 hin, (Except.ok.inj h).symm⟩
      case isFalse => nomatch h
  · rintro ⟨p, hp, n, hn, hin, rfl⟩
    simp only [matchTemplates_eq_some_iff.2 ⟨hp, hn⟩, (inMemory_iff n).2 hin, if_true]

/-! ### The text of a template with an address -/

theorem normalise_append (t u : Text) : normalise (t ++ u) = normalise t ++ normalise u := by
  rw [normalise, squeeze, List.filter_append, List.map_append]
  rfl

/-- A number written is already in capitals without white space. -/
theorem normalise_hexFixed (k n : Nat) : normalise (hexFixed k n) = hexFixed k n := by
  have hupper : ∀ c ∈ hexFixed k n, upperChar c = c := by
    intro c hc
    obtain ⟨d, hd, rfl⟩ := mem_hexFixed hc
    exact upperChar_hexDigit hd
  rw [normalise, squeeze_hexFixed, List.map_congr_left hupper, List.map_id']

theorem readHex_of_ne_nil {t : Text} (ht : t ≠ []) : readHex t = readHexFrom 0 t := by
  cases t with
  | nil => exact absurd rfl ht
  | cons => rfl

/-- A number written in at least one digit reads back. -/
theorem readHex_hexFixed {k n : Nat} (hk : k ≠ 0) (hn : n < 16 ^ k) : readHex (hexFixed k n) = some n := by
  have hne : hexFixed k n ≠ [] := List.ne_nil_of_length_pos (by rw [hexFixed_length]; exact Nat.pos_of_ne_zero hk)
  rw [readHex_of_ne_nil hne, readHexFrom_hexFixed 0 k n hn, Nat.zero_mul, Nat.zero_add]

/-- X is no digit, so that a number written does not begin with `0X`. -/
theorem afterPrefix_zeroX_hexFixed (n : Nat) (rest : Text) : afterPrefix "0X".toList (hexFixed 3 n ++ rest) = none := by
  cases hpre : afterPrefix "0X".toList (hexFixed 3 n ++ rest) with
  | none => rfl
  | some t =>
    have hsecond : hexDigit (n / 16 % 16) = 'X' := (List.cons.inj (List.cons.inj (afterPrefix_eq_some_iff.1 hpre)).2).1
    have hvalue := hexDigitValue_hexDigit (Nat.mod_lt (n / 16) (by decide : 0 < 16))
    rw [hsecond] at hvalue
    nomatch hvalue

/-- A three-digit address before a character that is no digit is read back as a placeholder (30_encoding.md R86). -/
theorem readPlaceholder_hexFixed {n : Nat} (hn : n < 16 ^ 3) {tail : Text}
    (htail : ∀ c ∈ tail.head?, hexDigitValue c = none) : readPlaceholder (hexFixed 3 n ++ tail) = some (n, tail) := by
  have hread := readHex_hexFixed (by decide) hn
  unfold readPlaceholder
  rw [afterPrefix_zeroX_hexFixed, spanHex_hexFixed 3 n tail htail]
  show (readHex (hexFixed 3 n)).map _ = _
  rw [hread]
  rfl

/-- The text of a template with this address in it (30_encoding.md R88). -/
def templateText (p : Template) (x : Nat) : Text :=
  match p.after with
  | none => p.before
  | some tail => p.before ++ hexFixed 3 x ++ tail

theorem templateText_of_none {p : Template} (h : p.after = none) (x : Nat) : templateText p x = p.before := by
  rw [templateText, h]

theorem templateText_of_some {p : Template} {tail : Text} (h : p.after = some tail) (x : Nat) :
    templateText p x = p.before ++ hexFixed 3 x ++ tail := by
  rw [templateText, h]

/-- What follows the placeholder begins with no digit. -/
theorem head_of_bracketed {p : Template} {tail : Text} (hp : p ∈ templates) (hafter : p.after = some tail) :
    ∀ c ∈ (normalise tail).head?, hexDigitValue c = none := by
  have hbracketed := templates_bracketed p hp
  rw [bracketed, hafter, Bool.and_eq_true, beq_iff_eq, beq_iff_eq] at hbracketed
  intro c hc
  obtain ⟨rest, hrest⟩ := List.head?_eq_some_iff.1 hc
  have hdrop := hbracketed.2
  rw [hrest, List.dropWhile_eq_self_iff] at hdrop
  have hnot : isPlaceholderChar c = false := eq_false_of_ne_true (hdrop (Nat.succ_pos _))
  rw [isPlaceholderChar, Bool.or_eq_false_iff] at hnot
  exact Option.not_isSome_iff_eq_none.1 (ne_true_of_eq_false hnot.1)

/-- A template matches its own text, with the address that stands there, or 0 when nothing does. -/
theorem matchWhole_templateText {p : Template} {x : Nat} (hp : p ∈ templates) (hx : x < 16 ^ 3)
    (hzero : p.after = none → x = 0) : p.matchWhole (normalise (templateText p x)) = some x := by
  rw [matchWhole_eq_some_iff]
  cases hafter : p.after with
  | none => exact .inl ⟨rfl, by rw [templateText_of_none hafter], hzero hafter⟩
  | some tail =>
    refine .inr ⟨tail, hexFixed 3 x ++ normalise tail, rfl, ?_, readPlaceholder_hexFixed hx (head_of_bracketed hp hafter)⟩
    rw [templateText_of_some hafter, List.append_assoc, normalise_append, normalise_append, normalise_hexFixed]

/-! ### Instructions and templates -/

theorem templates_opcode : templates.map Template.opcode = definedOpcodes := by decide

/-- The templates without a placeholder are those of the opcodes that ignore their address (30_encoding.md R74, R85). -/
theorem templates_after_eq_none_iff : ∀ p ∈ templates, p.after = none ↔ p.opcode ∈ [10, 20, 21] := by decide

theorem addrUse_ignored_iff (i : Instr) : i.addrUse = .ignored ↔ i.opcode ∈ [10, 20, 21] := by
  cases i <;> simp [Instr.addrUse, Instr.opcode]

/-- Every instruction has its template, which `decode(field)` finds. -/
theorem exists_template (i : Instr) : ∃ p ∈ templates, p.opcode = i.opcode
    ∧ (p.after = none ↔ i.addrUse = .ignored) ∧ ∀ f, fieldOpcode f = i.opcode →
      decodeText f = templateText p (fieldAddr f).toNat := by
  have hmem : i.opcode ∈ templates.map Template.opcode := by
    rw [templates_opcode, ← List.contains_iff_mem]
    exact opcodeDefined_opcode i
  obtain ⟨q, hq, hqi⟩ := List.mem_map.1 hmem
  have hfind : (templates.find? fun p => p.opcode == i.opcode).isSome = true :=
    List.find?_isSome.2 ⟨q, hq, beq_iff_eq.2 hqi⟩
  obtain ⟨p, hfind⟩ := Option.isSome_iff_exists.1 hfind
  have hp := List.mem_of_find?_eq_some hfind
  have hpi : p.opcode = i.opcode := beq_iff_eq.1 (List.find?_some (p := fun p : Template => p.opcode == i.opcode) hfind)
  refine ⟨p, hp, hpi, ?_, fun f hf => ?_⟩
  · rw [templates_after_eq_none_iff p hp, hpi, addrUse_ignored_iff]
  · rw [decodeText, hf, hfind]
    rfl

/-- What the assembler can produce, in one condition and one for the opcodes without placeholder (30_encoding.md R87). -/
theorem assemblable_iff (i : Instr) : i.assemblable = true ↔
    i.operand.toNat < Config.memWords ∧ (i.addrUse = .ignored → i.operand.toNat = 0) := by
  unfold Instr.assemblable
  cases hi : i.addrUse with
  | data | jump => simp
  | ignored =>
    rw [decide_eq_true_eq]
    exact ⟨fun hzero => ⟨by rw [hzero]; decide, fun _ => hzero⟩, fun h => h.2 rfl⟩

/-- Settles O59: the text is that of the instruction's template, which matches it with the same address. -/
theorem assembledTextOfAnInstructionReadsBack : Obligations.AssembledTextOfAnInstructionReadsBack := by
  intro f i hd hassemblable
  obtain ⟨hop, haddr⟩ := parts_of_decode hd
  obtain ⟨hlt, hzero⟩ := (assemblable_iff i).1 hassemblable
  obtain ⟨p, hp, hpi, hafter, htext⟩ := exists_template i
  rw [← haddr] at hlt hzero
  have hmatch := matchWhole_templateText hp (fieldAddr f).isLt fun h => hzero (hafter.1 h)
  refine encodeText_eq_ok_iff.2 ⟨p, hp, _, htext f hop ▸ hmatch, hlt, ?_⟩
  rw [hpi, ← hop, BitVec.ofNat_toNat, BitVec.setWidth_eq, Laws.makeField_parts]

/-- Conversely, what `encode(text)` answers is the field of an assemblable instruction. -/
theorem assemblable_of_encodeText {t : Text} {f : Field} (h : encodeText t = .ok f) :
    ∃ i, decode f = .ok i ∧ i.assemblable = true := by
  obtain ⟨p, hp, n, hmatch, hn, rfl⟩ := encodeText_eq_ok_iff.1 h
  have hdefined : opcodeDefined p.opcode = true := by
    rw [opcodeDefined, List.contains_iff_mem, ← templates_opcode]
    exact List.mem_map_of_mem hp
  obtain ⟨i, hi⟩ := decodeParts_of_opcodeDefined hdefined (BitVec.ofNat 12 n)
  obtain ⟨hop, haddr⟩ := parts_of_decodeParts hi
  have hnum : i.operand.toNat = n := by
    rw [← haddr, BitVec.toNat_ofNat]
    exact Nat.mod_eq_of_lt (Nat.lt_trans hn (by decide))
  refine ⟨i, ?_, (assemblable_iff i).2 ⟨hnum ▸ hn, fun hignored => ?_⟩⟩
  · rw [decode, Laws.fieldOpcode_makeField, Laws.fieldAddr_makeField, hi]
  · rw [addrUse_ignored_iff, ← hop, ← templates_after_eq_none_iff p hp] at hignored
    rcases (matchWhole_eq_some_iff p _ n).1 hmatch with ⟨-, -, hzero⟩ | ⟨tail, _, hafter, -⟩
    · exact hnum.trans hzero
    · nomatch hignored.symm.trans hafter

end Sys2Proof.Proofs
end

section
/-! SUPPORT. The host's reads and writes: `setCPU` of CTRL, and the round trip of every view of memory
(80_host_interface.md R236 to R240). -/

namespace Sys2Proof.Proofs

open Sys2Proof Sys2Proof.Machine

/-! ### setCPU of CTRL -/

theorem findReg_ctrl : findReg "ctrl".toList = some .ctrl := rfl

theorem findCtrl_name (c : Ctrl) : findCtrl c.name = some c := by
  cases c <;> rfl

/-- Only the name of a control state stands for one (10_state.md R28; log 25). -/
theorem name_of_findCtrl {t : Text} {c : Ctrl} (h : findCtrl t = some c) : t = c.name :=
  (beq_iff_eq.1 (List.find?_some (p := fun c : Ctrl => c.name == t) h)).symm

/-- A value that is the name of no control state is refused, whatever else is asked (80_host_interface.md R239). -/
theorem setCPU_ctrl_of_no_name {attr : Text} {v : HostValue} (s : State) (hv : ∀ c : Ctrl, v ≠ .text c.name) :
    setCPU "ctrl".toList attr v s = .error .invalidCPUState := by
  cases v with
  | text t =>
    have hnone : findCtrl t = none :=
      Option.eq_none_iff_forall_ne_some.2 fun c hc => hv c (congrArg HostValue.text (name_of_findCtrl hc))
    simp only [setCPU, findReg_ctrl, hnone]
  | num | hex | signed | signedHex => simp only [setCPU, findReg_ctrl]

theorem setCPU_ctrl_name (attr : Text) (c : Ctrl) (s : State) :
    setCPU "ctrl".toList attr (.text c.name) s = .ok (s.withCtrl c) := by
  simp only [setCPU, findReg_ctrl, findCtrl_name]

/-- Settles O56: CTRL is replaced by the state that a name stands for, and every other value fails. -/
theorem setCtrlTakesExactlyTheFiveNames : Obligations.SetCtrlTakesExactlyTheFiveNames := by
  intro s attr
  refine ⟨fun c => ?_, fun v hv => ?_⟩
  · rw [perform, setCPU_ctrl_name, answerWrite]
    rfl
  · rw [perform, setCPU_ctrl_of_no_name s hv, answerWrite]

/-! ### Views of memory -/

/-- A view of the word that a write through the same view left shows the field written. -/
theorem viewWord_patchWord (side : Side) (part : Part) (form : Form) (w : Word) {n : Nat} (hn : n < 2 ^ part.width) :
    viewWord side part form (patchWord side part w n) = valueOfField part form n := by
  have hfit : side.base + part.lsb + part.width ≤ 40 := by
    cases side <;> cases part <;> decide
  rw [viewWord, patchWord, selectBits_splice w _ hfit, BitVec.toNat_ofNat, Nat.mod_eq_of_lt hn]

section
variable {a : Nat} {name : Text} {side : Side} {part : Part} {form : Form}
  (ha : a < Config.memWords) (hname : findAttr name = some (.view side part form))
include ha hname

/-- `setRAM` through a view replaces the field of the view by the number its value stands for (R238). -/
theorem perform_setRAM_view {v : HostValue} {n : Nat} (hv : checkedField part form v .invalidAttributeValue = .ok n)
    (s : State) : perform (.setRAM a name v) s
      = (s.withMem (s.mem.write a (patchWord side part (s.mem.read a) n)), .done) := by
  have hview : memoryView name = .ok (side, part, form) := by rw [memoryView, hname]
  rw [perform, setRAM, if_pos ((inMemory_iff a).2 ha), hview]
  simp only [hv]
  rfl

/-- `getRAM` through a view answers the value of its field (R236). -/
theorem perform_getRAM_view (s : State) :
    perform (.getRAM a name) s = (s, .value (viewWord side part form (s.mem.read a))) := by
  have hview : memoryView name = .ok (side, part, form) := by rw [memoryView, hname]
  rw [perform, getRAM, if_pos ((inMemory_iff a).2 ha), hview]
  rfl

end

/-! ### Values that stand for a field -/

/-- The fields of a part that its validator takes: any number of the part's width, for an opcode a defined one (R238). -/
def FieldValid (part : Part) (n : Nat) : Prop :=
  n < 2 ^ part.width ∧ (part = .opcode → n ∈ definedOpcodes.map BitVec.toNat)

theorem opcodeDefined_ofNat {n : Nat} (hn : n < 2 ^ 8) (h : n ∈ definedOpcodes.map BitVec.toNat) :
    opcodeDefined (BitVec.ofNat 8 n) = true := by
  rw [opcodeDefined_iff_toNat_mem, BitVec.toNat_ofNat, Nat.mod_eq_of_lt hn]
  exact h

theorem validateField_of_valid {part : Part} {n : Nat} (h : FieldValid part n) (bad : Fault) :
    validateField part n bad = .ok n := by
  obtain ⟨hn, hop⟩ := h
  cases part with
  | opcode => exact if_pos ⟨hn, opcodeDefined_ofNat hn (hop rfl)⟩
  | addr => exact if_pos hn
  | instruction => exact if_pos hn

theorem checkedField_of_fieldOfValue {part : Part} {form : Form} {v : HostValue} {n : Nat} {bad : Fault}
    (hv : fieldOfValue part form v bad = .ok n) (hn : FieldValid part n) : checkedField part form v bad = .ok n := by
  rw [checkedField, hv]
  exact validateField_of_valid hn bad

/-- Instruction text stands for the number of its field. -/
theorem fieldOfValue_instruction_text {u : Text} {n : Nat} (hn : n < 2 ^ 20)
    (hu : encodeText u = .ok (BitVec.ofNat 20 n)) (bad : Fault) :
    fieldOfValue .instruction .text (.text u) bad = .ok n := by
  show (encodeText u).map BitVec.toNat = _
  rw [hu]
  exact congrArg Except.ok ((BitVec.toNat_ofNat n 20).trans (Nat.mod_eq_of_lt hn))

/-- The free text of a part stands for the number that it names (log 20). -/
theorem fieldOfValue_opcode_text {u : Text} {n : Nat} (hu : partOfText true u = some n) (bad : Fault) :
    fieldOfValue .opcode .text (.text u) bad = .ok n := by
  show orFail (partOfText true u) bad = _
  rw [hu, orFail]

theorem fieldOfValue_addr_text {u : Text} {n : Nat} (hu : partOfText false u = some n) (bad : Fault) :
    fieldOfValue .addr .text (.text u) bad = .ok n := by
  show orFail (partOfText false u) bad = _
  rw [hu, orFail]

/-- The text of a field that some text stands for stands for that field again. -/
theorem encodeText_decodeText_of_encodeText {u : Text} {f : Field} (h : encodeText u = .ok f) :
    encodeText (decodeText f) = .ok f := by
  obtain ⟨i, hd, hi⟩ := assemblable_of_encodeText h
  exact assembledTextOfAnInstructionReadsBack f i hd hi

/-! ### The round trip -/

/-- Both values, the one written and its canonical form, stand for the field n; the canonical form is what a view of the
field shows. -/
structure SameField (part : Part) (form : Form) (n : Nat) (v r : HostValue) : Prop where
  written : ∀ bad, fieldOfValue part form v bad = .ok n
  canonical : ∀ bad, fieldOfValue part form r bad = .ok n
  shown : valueOfField part form n = r

/-- In the raw and the hex form a number is its own canonical value. -/
theorem sameField_raw (part : Part) (n : Nat) : SameField part .raw n (.num n) (.num n) := by
  cases part <;> exact ⟨fun _ => rfl, fun _ => rfl, rfl⟩

theorem sameField_hex (part : Part) (n : Nat) : SameField part .hex n (.hex n) (.hex n) := by
  cases part <;> exact ⟨fun _ => rfl, fun _ => rfl, rfl⟩

/-- Two values for one field make the round trip: the same state after either, and the canonical value in the view. -/
theorem setRAM_getRAM_of_sameField {a : Nat} {name : Text} {side : Side} {part : Part} {form : Form} {n : Nat}
    {v r : HostValue} (s : State) (ha : a < Config.memWords) (hname : findAttr name = some (.view side part form))
    (hn : FieldValid part n) (h : SameField part form n v r) :
    ∃ t, perform (.setRAM a name v) s = (t, .done) ∧ perform (.getRAM a name) t = (t, .value r)
      ∧ perform (.setRAM a name r) s = (t, .done)
      ∧ (∀ k, (k < side.base + part.lsb ∨ side.base + part.lsb + part.width ≤ k) →
          (t.mem.read a).getLsbD k = (s.mem.read a).getLsbD k)
      ∧ (∀ b, b ≠ a → t.mem.read b = s.mem.read b) ∧ t = { s with mem := t.mem } := by
  refine ⟨_, perform_setRAM_view ha hname (checkedField_of_fieldOfValue (h.written _) hn) s, ?_,
    perform_setRAM_view ha hname (checkedField_of_fieldOfValue (h.canonical _) hn) s, fun k hk => ?_,
    fun b hb => Memory.read_write_other _ _ hb, rfl⟩
  · rw [perform_getRAM_view ha hname, State.withMem_mem, Memory.read_write_same, viewWord_patchWord _ _ _ _ hn.1, h.shown]
  · exact read_write_splice_outside _ _ _ hk

/-- Settles O57: in each form the value written and its canonical form stand for the same field; for the text of an
instruction by O59, for the free texts by `partOfText_partText`. -/
theorem memoryAttributeWritesReadBack : Obligations.MemoryAttributeWritesReadBack := by
  intro s a name side part form n v r ha hname hn hop hforms
  have hvalid : FieldValid part n := ⟨hn, hop⟩
  refine setRAM_getRAM_of_sameField s ha hname hvalid ?_
  rcases hforms with ⟨rfl, rfl, rfl⟩ | ⟨rfl, rfl, rfl⟩ | ⟨rfl, rfl, ⟨u, rfl, hu⟩, rfl⟩ | ⟨rfl, rfl, ⟨u, rfl, hu⟩, rfl⟩
    | ⟨rfl, rfl, ⟨u, rfl, hu⟩, rfl⟩
  · exact sameField_raw part n
  · exact sameField_hex part n
  · exact ⟨fieldOfValue_instruction_text hn hu,
      fieldOfValue_instruction_text hn (encodeText_decodeText_of_encodeText hu), rfl⟩
  · have hmem : n ∈ partValues true := hop rfl
    exact ⟨fieldOfValue_opcode_text hu, fieldOfValue_opcode_text (partOfText_partText hmem), rfl⟩
  · have hmem : n ∈ partValues false := mem_partValues_addr.2 hn
    exact ⟨fieldOfValue_addr_text hu, fieldOfValue_addr_text (partOfText_partText hmem), rfl⟩

end Sys2Proof.Proofs
end

section
/-! SUPPORT. The bulk text: `dumpRAM()` read back line by line into a zeroed memory (80_host_interface.md R242 to R244). -/

namespace Sys2Proof.Proofs

open Sys2Proof Sys2Proof.Machine

/-! ### Lines -/

/-- A line feed, the end of every line of the dump (80_host_interface.md R242). -/
theorem textLines_line {l : Text} (hl : ∀ c ∈ l, c.toNat ≠ 10) (rest : Text) :
    textLines (l ++ Char.ofNat 10 :: rest) = l :: textLines rest := by
  induction l with
  | nil => rfl
  | cons c l ih =>
    obtain ⟨hc, hl⟩ := List.forall_mem_cons.1 hl
    rw [List.cons_append, textLines, if_neg hc, ih hl]

/-- Lines that each end in a line feed come apart again, with an empty line after the last one. -/
theorem textLines_flatMap {α : Type} {line : α → Text} {l : List α} (hline : ∀ a ∈ l, ∀ c ∈ line a, c.toNat ≠ 10) :
    textLines (l.flatMap fun a => line a ++ [Char.ofNat 10]) = l.map line ++ [[]] := by
  induction l with
  | nil => rfl
  | cons a l ih =>
    obtain ⟨ha, hline⟩ := List.forall_mem_cons.1 hline
    rw [List.flatMap_cons, List.append_assoc, List.singleton_append, textLines_line ha, ih hline]
    rfl

/-! ### One line of the dump -/

/-- The text of a word in a dump line: its four fields, blanks between (80_host_interface.md R242). -/
def wordText (w : Word) : Text :=
  hexFixed 2 (fieldOpcode (leftField w)).toNat ++ Char.ofNat 32 :: hexFixed 3 (fieldAddr (leftField w)).toNat
    ++ Char.ofNat 32 :: hexFixed 2 (fieldOpcode (rightField w)).toNat
    ++ Char.ofNat 32 :: hexFixed 3 (fieldAddr (rightField w)).toNat

/-- A dump line without its line feed. -/
def dumpLineText (a : Nat) (w : Word) : Text := hexFixed 3 a ++ Char.ofNat 32 :: wordText w

theorem dumpLine_eq (a : Nat) (w : Word) : dumpLine a w = dumpLineText a w ++ [Char.ofNat 10] := by
  simp [dumpLine, dumpLineText, wordText]

theorem squeeze_append (t u : Text) : squeeze (t ++ u) = squeeze t ++ squeeze u := List.filter_append t u

theorem squeeze_blank_cons (t : Text) : squeeze (Char.ofNat 32 :: t) = squeeze t := rfl

/-- Without its blanks the text of a word is ten digits. -/
theorem squeeze_wordText (w : Word) : squeeze (wordText w) =
    hexFixed 2 (fieldOpcode (leftField w)).toNat ++ hexFixed 3 (fieldAddr (leftField w)).toNat
      ++ hexFixed 2 (fieldOpcode (rightField w)).toNat ++ hexFixed 3 (fieldAddr (rightField w)).toNat := by
  simp only [wordText, squeeze_append, squeeze_blank_cons, squeeze_hexFixed]

/-- The four fields in their places are the word (30_encoding.md R70, R71). -/
theorem word_of_parts (w : Word) :
    (((0 * 16 ^ 2 + (fieldOpcode (leftField w)).toNat) * 16 ^ 3 + (fieldAddr (leftField w)).toNat) * 16 ^ 2
      + (fieldOpcode (rightField w)).toNat) * 16 ^ 3 + (fieldAddr (rightField w)).toNat = w.toNat := by
  rw [Laws.fieldOpcode_toNat, Laws.fieldAddr_toNat, Laws.fieldOpcode_toNat, Laws.fieldAddr_toNat, leftField_toNat,
    rightField_toNat]
  omega

/-- The ten digits read back as the word. -/
theorem readHex_squeeze_wordText (w : Word) : readHex (squeeze (wordText w)) = some w.toNat := by
  have hne : squeeze (wordText w) ≠ [] := by
    rw [squeeze_wordText]
    exact nofun
  rw [readHex_of_ne_nil hne, squeeze_wordText, readHexFrom_append, readHexFrom_append, readHexFrom_append,
    readHexFrom_hexFixed _ _ _ (fieldOpcode (leftField w)).isLt, Option.bind_some,
    readHexFrom_hexFixed _ _ _ (fieldAddr (leftField w)).isLt, Option.bind_some,
    readHexFrom_hexFixed _ _ _ (fieldOpcode (rightField w)).isLt, Option.bind_some,
    readHexFrom_hexFixed _ _ _ (fieldAddr (rightField w)).isLt, word_of_parts]

/-- A character of a dump line is a digit or a blank. -/
theorem mem_dumpLineText {a : Nat} {w : Word} {c : Char} (hc : c ∈ dumpLineText a w) :
    (∃ d, d < 16 ∧ c = hexDigit d) ∨ c = Char.ofNat 32 := by
  simp only [dumpLineText, wordText, List.mem_append, List.mem_cons] at hc
  rcases hc with hc | rfl | ((hc | rfl | hc) | rfl | hc) | rfl | hc
  exacts [.inl (mem_hexFixed hc), .inr rfl, .inl (mem_hexFixed hc), .inr rfl, .inl (mem_hexFixed hc), .inr rfl,
    .inl (mem_hexFixed hc), .inr rfl, .inl (mem_hexFixed hc)]

/-- So no line feed stands inside a dump line. -/
theorem toNat_ne_of_mem_dumpLineText {a : Nat} {w : Word} {c : Char} (hc : c ∈ dumpLineText a w) : c.toNat ≠ 10 := by
  intro hten
  rcases mem_dumpLineText hc with ⟨d, hd, rfl⟩ | rfl
  · have hspace := isSpace_hexDigit hd
    rw [isSpace, hten] at hspace
    nomatch hspace
  · nomatch hten

/-- A dump line is not blank: it begins with a digit. -/
theorem dumpLineText_not_blank (a : Nat) (w : Word) : (dumpLineText a w).all isSpace = false := by
  have hdigit : isSpace (hexDigit (a / 16 / 16 % 16)) = false := isSpace_hexDigit (Nat.mod_lt _ (by decide))
  show (isSpace (hexDigit (a / 16 / 16 % 16)) && _) = false
  rw [hdigit, Bool.false_and]

/-- A dump line reads back as its address and its word (80_host_interface.md R243). -/
theorem readMapLine_dumpLineText {a : Nat} (ha : a < Config.memWords) (w : Word) (n : Nat) :
    readMapLine n (dumpLineText a w) = .ok (some (a, w)) := by
  have hspan : spanHex (dumpLineText a w) = (hexFixed 3 a, Char.ofNat 32 :: wordText w) :=
    spanHex_hexFixed 3 a _ fun c hc => by cases hc; rfl
  have haddr : readHex (hexFixed 3 a) = some a := readHex_hexFixed (by decide) (Nat.lt_trans ha (by decide))
  have hblank : isSpace (Char.ofNat 32) = true := rfl
  have hfits : (inMemory a && decide (w.toNat < Config.wordMod)) = true :=
    Bool.and_eq_true_iff.2 ⟨(inMemory_iff a).2 ha, decide_eq_true w.isLt⟩
  simp only [readMapLine, dumpLineText_not_blank, Bool.false_eq_true, if_false, hspan, haddr, hblank, if_true,
    readHex_squeeze_wordText, hfits, wrap40_of_toNat]

/-! ### The whole dump -/

/-- The lines of the dump read back as the addresses in order with their words, from any line number on. -/
theorem readMap_dump {m : Memory} {l : List Nat} (hl : ∀ a ∈ l, a < Config.memWords) (n : Nat) :
    readMap n (l.map (fun a => dumpLineText a (m.read a)) ++ [[]]) = .ok (l.map fun a => (a, m.read a)) := by
  induction l generalizing n with
  | nil => rfl
  | cons a l ih =>
    obtain ⟨ha, hl⟩ := List.forall_mem_cons.1 hl
    rw [List.map_cons, List.cons_append, readMap, readMapLine_dumpLineText ha, ih hl]
    rfl

theorem dumpRAM_eq (m : Memory) :
    dumpRAM m = (List.range Config.memWords).flatMap fun a => dumpLineText a (m.read a) ++ [Char.ofNat 10] := by
  simp only [dumpRAM, dumpLine_eq]

theorem readMap_dumpRAM (m : Memory) : readMap 1 (textLines (dumpRAM m))
    = .ok ((List.range Config.memWords).map fun a => (a, m.read a)) := by
  rw [dumpRAM_eq, textLines_flatMap fun _ _ _ => toNat_ne_of_mem_dumpLineText]
  exact readMap_dump (fun _ => List.mem_range.1) 1

/-! ### The memory written back -/

/-- After writing the cells of another memory at some addresses, those read as in it and the others as before. -/
theorem read_writeCells_map (m m' : Memory) (l : List Nat) (b : Nat) :
    (writeCells m' (l.map fun a => (a, m.read a))).read b = if b ∈ l then m.read b else m'.read b := by
  induction l generalizing m' with
  | nil => rfl
  | cons a l ih =>
    rw [List.map_cons, writeCells, ih, Memory.read_write]
    by_cases hb : b ∈ l
    · rw [if_pos hb, if_pos (List.mem_cons_of_mem a hb)]
    · simp only [hb, if_false, List.mem_cons, or_false]
      by_cases hba : b = a
      · rw [if_pos hba, if_pos hba, hba]
      · rw [if_neg hba, if_neg hba]

/-- Writing every word of a canonical memory into the zeroed one makes that memory: both are canonical, and they read
alike. -/
theorem writeCells_zeroed_eq {m : Memory} (hwf : m.wf = true) :
    writeCells ⟨[]⟩ ((List.range Config.memWords).map fun a => (a, m.read a)) = m := by
  have hcells : ∀ c ∈ (List.range Config.memWords).map fun a => (a, m.read a), c.1 < Config.memWords := by
    simp only [List.forall_mem_map]
    exact fun _ => List.mem_range.1
  refine Memory.eq_of_read (writeCells_wf Memory.empty_wf hcells) hwf fun b => ?_
  rw [read_writeCells_map]
  split
  case isTrue => rfl
  case isFalse hb => exact (readCells_above m.cells hwf (Nat.not_lt.1 fun hlt => hb (List.mem_range.2 hlt))).symm

/-- Settles O58: the dump reads back as every word of the memory, which rebuilds it. -/
theorem dumpThenLoadReproducesMemory : Obligations.DumpThenLoadReproducesMemory := by
  intro s t hwf hzero
  have hempty : t.mem = ⟨[]⟩ := hzero
  rw [perform, loadRAM, readMap_dumpRAM]
  show (t.withMem (writeCells t.mem _), Reply.done) = _
  rw [hempty, writeCells_zeroed_eq hwf]
  rfl

end Sys2Proof.Proofs
end
